-- ==== Sys2Proof/Word.lean ====
section
/-! DEFINITION. The value types of the block: bits, frames, input snapshots, command words (R9, R10, R11). -/

namespace Sys2Proof

/-- A bit or an electrical level: `true` is 1 and high, `false` is 0 and low (R9). -/
abbrev Bit := Bool

/-- A 24-bit frame value `V[23:0]` (R11); also the shift stages and the output latches (R22, R23). -/
abbrev Frame := BitVec 24

/-- A 12-bit InputSnapshot `I[11:0]`, `I[n]` being the value read from pin `2 + n` (R84). -/
abbrev InputSnapshot := BitVec 12

/-- A 32-bit command word (R87). -/
abbrev CommandWord := BitVec 32

end Sys2Proof
end

