-- ==== Sys2Proof/Syntax.lean ====
section
/-! DEFINITION. The Signal Catalog and the operations of the block (R6, R17, R83, R84, R88). -/

namespace Sys2Proof

/-- The 26 logical output signals, in the source's order (R17, R83). -/
inductive OutSignal where
  | alarm | bcdA | bcdB | bcdC | bcdD | segA | segB | segC | segD | segE | segF | segG
  | cal | lss | lsl | lms | lml | strobeOut | dmx1 | dmx2 | dmx3 | dmx4 | dmx5 | dmx6
  | dmx7 | dmx8
  deriving DecidableEq, Repr

/-- The 12 logical input signals, in the source's order (R17, R84). -/
inductive InSignal where
  | gr | eosc | z | lstLsp | doRy | mc0 | mc1 | sstSsp | nulLap | chodFo | phase
  | strobeIn
  deriving DecidableEq, Repr

/-- The output signals in `O`-bit order (R83). -/
def OutSignal.all : List OutSignal :=
  [.alarm, .bcdA, .bcdB, .bcdC, .bcdD, .segA, .segB, .segC, .segD, .segE, .segF, .segG,
   .cal, .lss, .lsl, .lms, .lml, .strobeOut, .dmx1, .dmx2, .dmx3, .dmx4, .dmx5, .dmx6,
   .dmx7, .dmx8]

/-- The input signals in `I`-bit order, which is ascending pin order (R51, R84). -/
def InSignal.all : List InSignal :=
  [.gr, .eosc, .z, .lstLsp, .doRy, .mc0, .mc1, .sstSsp, .nulLap, .chodFo, .phase,
   .strobeIn]

/-- An OutputSnapshot: 26 values, each a bit or undefined (`none`) (R83). -/
structure OutputSnapshot where
  alarm : Option Bit
  bcdA : Option Bit
  bcdB : Option Bit
  bcdC : Option Bit
  bcdD : Option Bit
  segA : Option Bit
  segB : Option Bit
  segC : Option Bit
  segD : Option Bit
  segE : Option Bit
  segF : Option Bit
  segG : Option Bit
  cal : Option Bit
  lss : Option Bit
  lsl : Option Bit
  lms : Option Bit
  lml : Option Bit
  strobeOut : Option Bit
  dmx1 : Option Bit
  dmx2 : Option Bit
  dmx3 : Option Bit
  dmx4 : Option Bit
  dmx5 : Option Bit
  dmx6 : Option Bit
  dmx7 : Option Bit
  dmx8 : Option Bit
  deriving DecidableEq, Repr, Inhabited

/-- The value of one signal in a snapshot; `none` is undefined (R83). -/
def OutputSnapshot.get (o : OutputSnapshot) : OutSignal → Option Bit
  | .alarm => o.alarm
  | .bcdA => o.bcdA
  | .bcdB => o.bcdB
  | .bcdC => o.bcdC
  | .bcdD => o.bcdD
  | .segA => o.segA
  | .segB => o.segB
  | .segC => o.segC
  | .segD => o.segD
  | .segE => o.segE
  | .segF => o.segF
  | .segG => o.segG
  | .cal => o.cal
  | .lss => o.lss
  | .lsl => o.lsl
  | .lms => o.lms
  | .lml => o.lml
  | .strobeOut => o.strobeOut
  | .dmx1 => o.dmx1
  | .dmx2 => o.dmx2
  | .dmx3 => o.dmx3
  | .dmx4 => o.dmx4
  | .dmx5 => o.dmx5
  | .dmx6 => o.dmx6
  | .dmx7 => o.dmx7
  | .dmx8 => o.dmx8

/-- The snapshot that gives each signal the value `f` gives it. -/
def OutputSnapshot.ofFn (f : OutSignal → Option Bit) : OutputSnapshot where
  alarm := f .alarm
  bcdA := f .bcdA
  bcdB := f .bcdB
  bcdC := f .bcdC
  bcdD := f .bcdD
  segA := f .segA
  segB := f .segB
  segC := f .segC
  segD := f .segD
  segE := f .segE
  segF := f .segF
  segG := f .segG
  cal := f .cal
  lss := f .lss
  lsl := f .lsl
  lms := f .lms
  lml := f .lml
  strobeOut := f .strobeOut
  dmx1 := f .dmx1
  dmx2 := f .dmx2
  dmx3 := f .dmx3
  dmx4 := f .dmx4
  dmx5 := f .dmx5
  dmx6 := f .dmx6
  dmx7 := f .dmx7
  dmx8 := f .dmx8

/-- The operations of the block that have a command word (R88), in their abstract forms. -/
inductive Instr where
  /-- SAMPLE: read the 12 input pins (R170). -/
  | sample
  /-- CLEAR: blank the 24 register outputs and the two direct outputs (R134). -/
  | clear
  /-- SHIFT_OUT: shift a sequence of bits, first element first, and latch it (R130, R138). -/
  | shiftOut (bits : List Bit)
  /-- COMPOSE: blank, shift the assembled frame, write the two direct outputs (R150). -/
  | compose (o : OutputSnapshot)
  deriving DecidableEq, Repr

end Sys2Proof
end

