-- ==== Sys2Proof/WellFormed.lean ====
section
/-! DEFINITION. Which operations have a command word: a frame of 24 bits (R53, R138), a snapshot with
every value defined (R87, R157). -/

namespace Sys2Proof

/-- Every one of the 26 values is 0 or 1 (R150, R157). -/
def OutputSnapshot.allDefined (o : OutputSnapshot) : Bool :=
  OutSignal.all.all fun x => (o.get x).isSome

/-- The check on operands: SHIFT_OUT needs exactly 24 bits, COMPOSE needs a defined snapshot. -/
def Instr.wf : Instr → Bool
  | .sample => true
  | .clear => true
  | .shiftOut bits => bits.length == 24
  | .compose o => o.allDefined

/-- A well-formed operation, one that some command word encodes (R87, R89). -/
abbrev Instr.WellFormed (i : Instr) : Prop := i.wf = true

end Sys2Proof
end

