-- ==== Sys2Proof/Decode.lean ====
section
/-! DEFINITION. Bit order (R10, R11, R52), the snapshot packings (R83, R84), the command word, its decoder and
its encoder (R87 to R90). -/

namespace Sys2Proof

/-- `{ v[n-2:0], b }`: shift left by one, the top bit lost, `b` into bit 0 (R10, R111). -/
def shiftIn {n : Nat} (v : BitVec n) (b : Bit) : BitVec n :=
  (v <<< 1) ||| (BitVec.ofBool b).setWidth n

/-- The number whose most significant bit is the first element of the sequence (R11, R52). -/
def bitsToValue (n : Nat) (bits : List Bit) : BitVec n :=
  bits.foldl shiftIn 0#n

/-- The bits of a number, most significant first: for a frame, `F[0]` to `F[23]` (R11). -/
def valueToBits {n : Nat} (v : BitVec n) : List Bit :=
  (List.range n).map fun k => v.getLsbD (n - 1 - k)

/-- The index of an output signal in the packed snapshot `O[25:0]` (R83). -/
def OutSignal.bit : OutSignal → Nat
  | .alarm => 0
  | .bcdA => 1
  | .bcdB => 2
  | .bcdC => 3
  | .bcdD => 4
  | .segA => 5
  | .segB => 6
  | .segC => 7
  | .segD => 8
  | .segE => 9
  | .segF => 10
  | .segG => 11
  | .cal => 12
  | .lss => 13
  | .lsl => 14
  | .lms => 15
  | .lml => 16
  | .strobeOut => 17
  | .dmx1 => 18
  | .dmx2 => 19
  | .dmx3 => 20
  | .dmx4 => 21
  | .dmx5 => 22
  | .dmx6 => 23
  | .dmx7 => 24
  | .dmx8 => 25

/-- The index of an input signal in the packed snapshot `I[11:0]` (R84). -/
def InSignal.bit : InSignal → Nat
  | .gr => 0
  | .eosc => 1
  | .z => 2
  | .lstLsp => 3
  | .doRy => 4
  | .mc0 => 5
  | .mc1 => 6
  | .sstSsp => 7
  | .nulLap => 8
  | .chodFo => 9
  | .phase => 10
  | .strobeIn => 11

/-- The packed form `O[25:0]` of a snapshot (R83); an undefined value has no packed form and packs as 0. -/
def OutputSnapshot.pack (o : OutputSnapshot) : BitVec 26 :=
  bitsToValue 26 (OutSignal.all.reverse.map fun x => (o.get x).getD false)

/-- The snapshot a packed number stands for, every value defined (R83, R87). -/
def OutputSnapshot.unpack (w : BitVec 26) : OutputSnapshot :=
  .ofFn fun x => some (w.getLsbD x.bit)

/-- Why a command word is illegal (R89). DESIGN CHOICE: the spec records only the word (R194); that the decoder gives a
reason, and which one where several hold, is the model's (log 21). -/
inductive IllegalWord where
  /-- `op` is 0x0 or in 0x5 to 0xF. -/
  | reservedOp
  /-- `w[27:26]` is not 0. -/
  | zeroField
  /-- A SAMPLE or CLEAR word whose `arg` is not 0. -/
  | argNotZero
  /-- A SHIFT_OUT word whose `arg[25:24]` is not 0. -/
  | frameTooWide
  deriving DecidableEq, Repr

/-- The decoder of command words (R87, R88, R89). -/
def decode (w : CommandWord) : Except IllegalWord Instr :=
  let op := w.extractLsb' 28 4
  let zero := w.extractLsb' 26 2
  let arg := w.extractLsb' 0 26
  if zero ≠ 0#2 then .error .zeroField
  else if op = 0x1#4 then
    if arg = 0#26 then .ok .sample else .error .argNotZero
  else if op = 0x2#4 then
    if arg = 0#26 then .ok .clear else .error .argNotZero
  else if op = 0x3#4 then
    if w.extractLsb' 24 2 = 0#2 then .ok (.shiftOut (valueToBits (w.extractLsb' 0 24)))
    else .error .frameTooWide
  else if op = 0x4#4 then .ok (.compose (.unpack arg))
  else .error .reservedOp

/-- The command word of a well-formed operation, from the opcode map of R88. (For an ill-formed one the word
means nothing.) -/
def encode : Instr → CommandWord
  | .sample => 0x10000000#32
  | .clear => 0x20000000#32
  | .shiftOut bits => 0x30000000#32 ||| (bitsToValue 24 bits).setWidth 32
  | .compose o => 0x40000000#32 ||| o.pack.setWidth 32

/-- The decoder on an opcode-table row's word: `nbits` bits, bit 0 least significant; R90 knows no word longer
than 32 bits. -/
def decodeTableWord (nbits w : Nat) : Option Instr :=
  if nbits ≤ 32 then (decode (BitVec.ofNat 32 (w % 2 ^ nbits))).toOption else none

end Sys2Proof
end

