-- ==== Sys2Proof/Config.lean ====
section
/-! DEFINITION. What an implementation fixes (R8, R33) and the values the spec leaves open (free values:
constants with no body, so that no proof can see what they are). -/

namespace Sys2Proof

/-- What a position of a wiring table holds. A constant is what the validity check must reject (R86). -/
inductive WiringEntry where
  | signal (x : OutSignal)
  | constant (b : Bit)
  deriving DecidableEq, Repr

/-- Which check of a wiring table failed: the information of fault WiringTable (R190). Which one is recorded where
several fail is log 20. -/
inductive WiringDefect where
  /-- Not exactly 24 positions. -/
  | count
  /-- A position names CAL or STROBE_OUT, or holds a constant. -/
  | foreignName
  /-- A frame-bound signal stands at no position. -/
  | omittedSignal
  deriving DecidableEq, Repr

/-- The configuration parameters WIRING and POLARITY_MASK (R8). The table is a list in shift order: its
element `k` is the signal on `V[23-k]` (R81). -/
structure Config where
  wiring : List WiringEntry
  polarityMask : Frame
  deriving DecidableEq, Repr

/-- The five values the spec leaves unspecified at power-on (R8, R30): RESET_S, RESET_L, RESET_DATA,
RESET_CAL, RESET_STROBE. -/
structure ResetDraws where
  s : Frame
  l : Frame
  data : Bit
  cal : Bit
  strobe : Bit
  deriving DecidableEq, Repr, Inhabited

/-- Free value: the reset draws of this machine (R30 "a model must not pick zero"; log 1). -/
opaque Config.resetDraws : ResetDraws

/-- Free value: the levels on the 12 input pins at the moment of the `n`-th PinRead (R113, D17; log 2). -/
opaque Config.inputLevels : Nat → InputSnapshot

/-- Free value: what the Application Logic answers to a snapshot, given a token that stands for its private
history (R173, D16; log 3). -/
opaque Config.appAnswer : Nat → InputSnapshot → OutputSnapshot

/-- Free value: the Application Logic's private history after it has answered a snapshot (R173; log 3). -/
opaque Config.appNext : Nat → InputSnapshot → Nat

end Sys2Proof
end

