-- ==== Sys2Proof/Machine/Wiring.lean ====
section
/-! DEFINITION. The wiring table of R81, its validity check (R86), and the two bindings of a signal (R24). -/

namespace Sys2Proof

/-- A frame-bound signal: any of the 26 but CAL and STROBE_OUT (R17). -/
def OutSignal.frameBound (x : OutSignal) : Bool :=
  x ≠ .cal && x ≠ .strobeOut

/-- The enumerated wiring table, in shift order: element `k` is bound to `V[23-k]` (R81, D1). -/
def Wiring.enumerated : List OutSignal :=
  [.alarm, .bcdA, .bcdB, .bcdD, .bcdC, .segG, .segA, .segF,
   .segD, .segC, .segB, .segE, .lms, .lml, .lss, .lsl,
   .dmx8, .dmx6, .dmx4, .dmx2, .dmx1, .dmx3, .dmx5, .dmx7]

/-- The configuration of this hardware: the enumerated table and no inversion (R81, R82). -/
def Config.standard : Config where
  wiring := Wiring.enumerated.map .signal
  polarityMask := 0x000000#24

/-- Whether an entry names a frame-bound signal (R86). -/
def WiringEntry.proper : WiringEntry → Bool
  | .signal x => x.frameBound
  | .constant _ => false

/-- The validity check of a wiring table (R86), and which of its checks failed (R190). DESIGN CHOICE: where several
fail, the one reported is the first in the order count, foreign name, omitted signal; the spec gives no order
(log 20). -/
def Wiring.defect (table : List WiringEntry) : Option WiringDefect :=
  if table.length ≠ 24 then some .count
  else if !table.all WiringEntry.proper then some .foreignName
  else if !OutSignal.all.all (fun x => !x.frameBound || table.contains (.signal x)) then
    some .omittedSignal
  else none

/-- The frame bit a signal is bound to, the inverse of the wiring table (R24): shift index `k` is bit `23-k`. -/
def Config.position (c : Config) (x : OutSignal) : Option Nat :=
  if c.wiring.contains (.signal x) then some (23 - c.wiring.idxOf (.signal x)) else none

end Sys2Proof
end

