-- ==== Sys2Proof/Machine/State.lean ====
section
/-! DEFINITION. The state of the block (R20 to R28, R30), why a step can stop, and the state after reset. -/

namespace Sys2Proof.Machine

/-- The five output lines the block owns (R21). -/
inductive Line where
  | data | sck | rck | cal | strobeOut
  deriving DecidableEq, Repr

/-- The levels the block drives on its five output lines, `P[x]` (R12, R21). -/
structure Lines where
  data : Bit
  sck : Bit
  rck : Bit
  cal : Bit
  strobeOut : Bit
  deriving DecidableEq, Repr

/-- A micro-operation, one pin access (R15, R18). -/
inductive MicroOp where
  /-- `W(x,v)`: drive line `x` to level `v` (R110). -/
  | w (x : Line) (v : Bit)
  /-- `Rd(p)`: read the pin `p` of input signal `n` (R113). -/
  | rd (n : InSignal)
  deriving DecidableEq, Repr

/-- What the block does with a pin number (R50). -/
inductive PinUse where
  | input (n : InSignal)
  | output (x : Line)
  /-- Pins 20 and 21, "explicitly unused/out of scope" (R5, R51). -/
  | reserved
  /-- A pin the block never touches (R50). -/
  | foreign
  deriving DecidableEq, Repr

/-- The sequencer's phase (R27): RESET until the boot CLEAR has finished. -/
inductive Phase where
  | reset | running
  deriving DecidableEq, Repr

/-- The two ways to drive the model (R175). -/
inductive Mode where
  | loop | command
  deriving DecidableEq, Repr

/-- Which operation of the ITERATE in progress the Control Loop takes next (R172). -/
inductive Turn where
  | sample | compose
  deriving DecidableEq, Repr

/-- The four fault causes with the information they record (R190). All four are safe: the machine stops where
the real block might go on. The latch of R28 holds one; a machine whose latch holds one takes no step, and
`step` answers it. -/
inductive Fault where
  /-- Raised by SHIFT_OUT on a sequence of `length` bits, not 24 (R138, R191). Safe. -/
  | frameLength (length : Nat)
  /-- Raised by COMPOSE; `x` is the first undefined signal in `O`-bit order (R157, R192). Safe. -/
  | undefinedOutput (x : OutSignal)
  /-- The configuration is rejected at construction: there is no machine (R193). Safe. -/
  | wiringTable (d : WiringDefect)
  /-- Raised by the decoder in command mode on an illegal word (R89, R194). Safe. -/
  | illegalCommand (w : CommandWord)
  deriving DecidableEq, Repr

/-- Why the model gives no next state though no fault has been raised. All are safe. -/
inductive Refusal where
  /-- Raised by an arm of `exec` that has no meaning yet. Safe. No arm is left so. -/
  | notModelled (mnemonic : String)
  /-- Raised by every operation begun while another is in progress (R176, U10). Safe. -/
  | operationInProgress
  /-- Raised by an access to a pin that is none of the block's lines of that direction (R110, D26). Safe. -/
  | notABlockPin (p : Nat)
  /-- Raised by `step` in command mode when the list of words is exhausted and `seq` is empty: the run has ended
  (R175; log 10). Safe. -/
  | runEnded
  deriving DecidableEq, Repr

/-- The state of the block, of the register chain it drives and of the sequencer (R20), the configuration it was
built with (R33), and the model's own fields for values in flight and for the inputs of the run. -/
@[ext]
structure State where
  /-- The output line levels (R21). -/
  P : Lines
  /-- The shift stages `S[23:0]` (R22). -/
  S : Frame
  /-- The output latches `L[23:0]` (R23). -/
  L : Frame
  /-- The sequencer's phase (R27). -/
  phase : Phase
  /-- The pin accesses of the operation in progress not yet performed (R27). -/
  seq : List MicroOp
  /-- The fault latch (R28). -/
  fault : Option Fault
  /-- The configuration, a constant (R8, R33; log 8). -/
  cfg : Config
  /-- The operation in progress is the boot CLEAR (R171; log 7). -/
  booting : Bool
  /-- The InputSnapshot in flight (R26, R170; log 4). -/
  I : InputSnapshot
  /-- How the model is driven (R175; log 5). -/
  mode : Mode
  /-- The command words not yet taken (R87, R175; log 5). -/
  commands : List CommandWord
  /-- What the Control Loop takes next (R172; log 5). -/
  turn : Turn
  /-- The input levels at the next PinReads, as far as the run gives them (R113; log 2). -/
  inputs : List InputSnapshot
  /-- How many PinReads have been performed (log 2). -/
  reads : Nat
  /-- The next answers of the Application Logic, as far as the run gives them (R173; log 3). -/
  appAnswers : List OutputSnapshot
  /-- A token for the private history of the Application Logic (R173; log 3). -/
  appHistory : Nat
  deriving DecidableEq, Repr

/-- The state after power-on of a block built with configuration `c`, the five unspecified values being the
draws `d` (R30, R220). -/
def State.resetWith (c : Config) (d : ResetDraws) : State where
  P := { data := d.data, sck := false, rck := false, cal := d.cal, strobeOut := d.strobe }
  S := d.s
  L := d.l
  phase := .reset
  seq := []
  fault := none
  cfg := c
  booting := false
  I := 0#12
  mode := .loop
  commands := []
  turn := .sample
  inputs := []
  reads := 0
  appAnswers := []
  appHistory := 0

/-- The state of this hardware after power-on (R30): its own configuration, and draws nothing is known of. -/
def State.reset : State := .resetWith .standard Config.resetDraws

end Sys2Proof.Machine
end

