-- ==== Sys2Proof/Machine/Ops.lean ====
section
/-! DEFINITION. The named operations: the pin space (R50), the pin primitives and the register chain's reaction
(R110 to R113), the oracles, fault entry (R198), and how an operation is begun and goes on (R27, R176). -/

namespace Sys2Proof.Machine

/-! ### The pin space -/

/-- The pin number of an output line (R7, R50). -/
def Line.pin : Line → Nat
  | .strobeOut => 14
  | .sck => 15
  | .rck => 16
  | .data => 17
  | .cal => 18

/-- The pin number of an input signal: the `n`-th of the list is on pin `2 + n` (R51). -/
def inPin (n : InSignal) : Nat := 2 + n.bit

/-- What the block does with pin `p`: the table of R50. -/
def pinUse (p : Nat) : PinUse :=
  match p with
  | 2 => .input .gr
  | 3 => .input .eosc
  | 4 => .input .z
  | 5 => .input .lstLsp
  | 6 => .input .doRy
  | 7 => .input .mc0
  | 8 => .input .mc1
  | 9 => .input .sstSsp
  | 10 => .input .nulLap
  | 11 => .input .chodFo
  | 12 => .input .phase
  | 13 => .input .strobeIn
  | 14 => .output .strobeOut
  | 15 => .output .sck
  | 16 => .output .rck
  | 17 => .output .data
  | 18 => .output .cal
  | 20 => .reserved
  | 21 => .reserved
  | _ => .foreign

/-! ### Output lines and the register chain -/

/-- `P[x]` (R12). -/
def Lines.get (P : Lines) : Line → Bit
  | .data => P.data
  | .sck => P.sck
  | .rck => P.rck
  | .cal => P.cal
  | .strobeOut => P.strobeOut

/-- The line levels after `P[x] <- v` (R12). -/
def Lines.set (P : Lines) (x : Line) (v : Bit) : Lines :=
  match x with
  | .data => { P with data := v }
  | .sck => { P with sck := v }
  | .rck => { P with rck := v }
  | .cal => { P with cal := v }
  | .strobeOut => { P with strobeOut := v }

/-- ShiftEdge: `S <- { S[22:0], P[DATA] }` (R111). -/
def shiftEdge (s : State) : State :=
  { s with S := shiftIn s.S s.P.data }

/-- LatchEdge: `L <- S` (R112). -/
def latchEdge (s : State) : State :=
  { s with L := s.S }

/-- PinWrite(x, v): set the level; a rising edge of SCK shifts, one of RCK latches (R110). -/
def pinWrite (x : Line) (v : Bit) (s : State) : State :=
  let rising := !s.P.get x && v
  let s' := { s with P := s.P.set x v }
  match x with
  | .sck => if rising then shiftEdge s' else s'
  | .rck => if rising then latchEdge s' else s'
  | .data => s'
  | .cal => s'
  | .strobeOut => s'

/-- A write to a pin by its number, `MemWrite(p, 1, v)` (R13): any pin but the five is refused (R110, D26). -/
def writePin (p : Nat) (v : Bit) (s : State) : Host.Outcome State Fault Refusal :=
  match pinUse p with
  | .output x => .next (pinWrite x v s)
  | .input _ => .refused (.notABlockPin p)
  | .reserved => .refused (.notABlockPin p)
  | .foreign => .refused (.notABlockPin p)

/-- `REG_A = S[23:16]`, the register farthest from DATA (R22). -/
def regA (v : Frame) : BitVec 8 := v.extractLsb' 16 8

/-- `REG_B = S[15:8]` (R22). -/
def regB (v : Frame) : BitVec 8 := v.extractLsb' 8 8

/-- `REG_C = S[7:0]`, the register DATA feeds (R22). -/
def regC (v : Frame) : BitVec 8 := v.extractLsb' 0 8

/-- The output vector `OUT = (L[23:0], P[CAL], P[STROBE_OUT])` (R24). -/
def outputVector (s : State) : Frame × Bit × Bit :=
  (s.L, s.P.cal, s.P.strobeOut)

/-- What the readback harness reads: `L[23]` down to `L[0]` (R133, R204). -/
def readback (s : State) : List Bit := valueToBits s.L

/-- The level of the physical output line a signal is bound to (R24). -/
def outputLine (s : State) (x : OutSignal) : Option Bit :=
  match x with
  | .cal => some s.P.cal
  | .strobeOut => some s.P.strobeOut
  | x => (s.cfg.position x).map s.L.getLsbD

/-! ### The environment: input levels and the Application Logic -/

/-- The levels on the 12 pins at the moment of the `k`-th PinRead from now: what the run gives, and beyond that a
free value (R113, D17; log 2). -/
def levelsAt (s : State) (k : Nat) : InputSnapshot :=
  s.inputs[k]?.getD (Config.inputLevels (s.reads + k))

/-- PinRead(p) of the pin of signal `n`: the live level, and the state in which that moment has passed (R113). -/
def pinRead (n : InSignal) (s : State) : Bit × State :=
  ((levelsAt s 0).getLsbD n.bit, { s with inputs := s.inputs.tail, reads := s.reads + 1 })

/-- A read of a pin by its number, `MemRead(p, 1)` (R13): only pins 2 to 13 are read (R113). -/
def readPin (p : Nat) (s : State) : Except Refusal (Bit × State) :=
  match pinUse p with
  | .input n => .ok (pinRead n s)
  | .output _ => .error (.notABlockPin p)
  | .reserved => .error (.notABlockPin p)
  | .foreign => .error (.notABlockPin p)

/-- The value with bit `i` replaced by `b`. -/
def setBit {n : Nat} (v : BitVec n) (i : Nat) (b : Bit) : BitVec n :=
  (v &&& ~~~(1#n <<< i)) ||| ((BitVec.ofBool b).setWidth n <<< i)

/-- The Application Logic's answer to the snapshot in flight, and the state after it: no pin access (R173). -/
def consult (s : State) : OutputSnapshot × State :=
  let s' := { s with appAnswers := s.appAnswers.tail, appHistory := Config.appNext s.appHistory s.I }
  match s.appAnswers with
  | o :: _ => (o, s')
  | [] => (Config.appAnswer s.appHistory s.I, s')

/-! ### Micro-operations -/

/-- One pin access: a write, or a read whose result becomes `I[n]` (R15, R170). -/
def perform (m : MicroOp) (s : State) : State :=
  match m with
  | .w x v => pinWrite x v s
  | .rd n =>
    let (b, s') := pinRead n s
    { s' with I := setBit s'.I n.bit b }

/-- A sequence of pin accesses, each complete before the next begins (R57). -/
def performAll (ms : List MicroOp) (s : State) : State :=
  ms.foldl (fun s m => perform m s) s

/-- The state with `q` as the accesses not yet performed (R27). -/
def withSeq (q : List MicroOp) (s : State) : State :=
  { s with seq := q }

/-- The state with `seq` loaded with an operation's expansion; `boot` says whether it is the boot CLEAR (R27, R171). -/
def load (boot : Bool) (ms : List MicroOp) (s : State) : State :=
  { s with seq := ms, booting := boot }

/-- `phase <- RUNNING` once the last micro-operation of the boot CLEAR has been performed (R27, R171). -/
def settle (s : State) : State :=
  match s.seq, s.booting with
  | [], true => { s with phase := .running, booting := false }
  | _, _ => s

/-- Perform the head of `seq` and remove it (R27). -/
def advance (s : State) : State :=
  match s.seq with
  | [] => s
  | m :: rest => settle (withSeq rest (perform m s))

/-! ### Faults, and beginning an operation -/

/-- `raise Fault(name, info)`: set the latch, empty `seq`, change nothing else (R198). -/
def raiseFault (f : Fault) (s : State) : State :=
  { s with fault := some f, seq := [] }

/-- What keeps a machine from taking any step: a latched fault (R28), or a configuration that should have been
rejected at construction (R193). -/
def State.stopped (s : State) : Option Fault :=
  match s.fault with
  | some f => some f
  | none => (Wiring.defect s.cfg.wiring).map .wiringTable

/-- Begin an operation: not on a stopped machine (R28), and not while one is in progress (R176). -/
def whenIdle (s : State) (k : State → Host.Outcome State Fault Refusal) : Host.Outcome State Fault Refusal :=
  match s.stopped with
  | some f => .fault f
  | none =>
    match s.seq with
    | [] => k s
    | _ :: _ => .refused .operationInProgress

/-- Load `seq` with an operation's expansion and perform its first pin access (R27; log 6). `boot` says whether
this is the boot CLEAR. -/
def start (boot : Bool) (ms : List MicroOp) (s : State) : Host.Outcome State Fault Refusal :=
  .next (advance (load boot ms s))

/-- Construction of the machine: a malformed wiring table is rejected (R33, R193). -/
def construct (c : Config) (d : ResetDraws) : Host.Outcome State Fault Refusal :=
  match Wiring.defect c.wiring with
  | some x => .fault (.wiringTable x)
  | none => .next (.resetWith c d)

end Sys2Proof.Machine
end

