-- ==== Sys2Proof/Machine/Operands.lean ====
section
/-! DEFINITION. The operands of COMPOSE and SHIFT_OUT: the check on undefined values (R157), ASSEMBLE (R85), and the
expansions into pin accesses (R114 to R116, R130, R134, R150, R170). -/

namespace Sys2Proof.Machine

/-- The first undefined signal of a snapshot, in `O`-bit order (R157, R192, R197). -/
def firstUndefined (o : OutputSnapshot) : Option OutSignal :=
  OutSignal.all.find? fun x => (o.get x).isNone

/-- The bit a position of the wiring table takes from a snapshot whose values are defined (R85). -/
def entryBit (o : OutputSnapshot) : WiringEntry → Bit
  | .signal x => (o.get x).getD false
  | .constant b => b

/-- `ASSEMBLE(O)`: `V[23-k]` is the value of the signal at shift index `k`, then the mask (R85). -/
def assemble (c : Config) (o : OutputSnapshot) : Frame :=
  bitsToValue 24 (c.wiring.map (entryBit o)) ^^^ c.polarityMask

/-- SHIFT_BIT(b): the bit cell (R114). -/
def shiftBit (b : Bit) : List MicroOp :=
  [.w .data b, .w .sck true, .w .sck false]

/-- LATCH_PULSE (R115). -/
def latchPulse : List MicroOp :=
  [.w .rck true, .w .rck false]

/-- DIRECT_WRITE(c, s), CAL first (R116). -/
def directWrite (c s : Bit) : List MicroOp :=
  [.w .cal c, .w .strobeOut s]

/-- The pin trace of SHIFT_OUT: one bit cell per bit, then one latch pulse (R130). -/
def shiftOutTrace (bits : List Bit) : List MicroOp :=
  bits.flatMap shiftBit ++ latchPulse

/-- The pin trace of CLEAR: SHIFT_OUT of 24 raw zeros, then both direct outputs low (R134). -/
def clearTrace : List MicroOp :=
  shiftOutTrace (valueToBits 0x000000#24) ++ directWrite false false

/-- The pin trace of COMPOSE once its frame is assembled: CLEAR, SHIFT_OUT, direct writes (R150). -/
def composeTrace (v : Frame) (c s : Bit) : List MicroOp :=
  clearTrace ++ shiftOutTrace (valueToBits v) ++ directWrite c s

/-- The pin trace of SAMPLE: `Rd(2)` to `Rd(13)` (R170). -/
def sampleTrace : List MicroOp :=
  InSignal.all.map .rd

end Sys2Proof.Machine
end

