-- ==== Sys2Proof/Machine/Composer.lean ====
section
/-! DEFINITION. The Output Composer: COMPOSE (R150, R157). -/

namespace Sys2Proof.Machine

/-- COMPOSE: fault UndefinedOutput before any pin write if a value is undefined; else assemble, CLEAR, SHIFT_OUT,
direct writes (R150, R157). -/
def execCompose (o : OutputSnapshot) (s : State) : Host.Outcome State Fault Refusal :=
  whenIdle s fun s =>
    match firstUndefined o with
    | some x => .next (raiseFault (.undefinedOutput x) s)
    | none =>
      start false (composeTrace (assemble s.cfg o) ((o.get .cal).getD false) ((o.get .strobeOut).getD false)) s

end Sys2Proof.Machine
end

