-- ==== Sys2Proof/Machine/Driver.lean ====
section
/-! DEFINITION. The Shift-Register Driver: CLEAR (R134) and SHIFT_OUT (R130, R138). -/

namespace Sys2Proof.Machine

/-- CLEAR; performed in phase RESET it is the boot CLEAR (R92, R134, R171; log 7). -/
def execClear (s : State) : Host.Outcome State Fault Refusal :=
  whenIdle s fun s => start (s.phase == .reset) clearTrace s

/-- SHIFT_OUT: fault FrameLength before any pin write unless there are exactly 24 bits (R130, R138). -/
def execShiftOut (bits : List Bit) (s : State) : Host.Outcome State Fault Refusal :=
  whenIdle s fun s =>
    if bits.length = 24 then start false (shiftOutTrace bits) s
    else .next (raiseFault (.frameLength bits.length) s)

end Sys2Proof.Machine
end

