-- ==== Sys2Proof/Machine/Sampler.lean ====
section
/-! DEFINITION. The Input Sampler: SAMPLE (R170). -/

namespace Sys2Proof.Machine

/-- SAMPLE: 12 reads in ascending pin order; it writes no pin, stage or latch (R170). -/
def execSample (s : State) : Host.Outcome State Fault Refusal :=
  whenIdle s fun s => start false sampleTrace s

end Sys2Proof.Machine
end

