-- ==== Sys2Proof/Machine/Dispatch.lean ====
section
/-! DEFINITION. One arm per operation, each one direct call of its meaning. -/

namespace Sys2Proof.Machine

/-- Begin operation `i` at `s`: its checks and its first pin access; the rest of its expansion is left in `seq` (R27). -/
def exec (i : Instr) (s : State) : Host.Outcome State Fault Refusal :=
  match i with
  | .sample => Sys2Proof.Machine.execSample s
  | .clear => Sys2Proof.Machine.execClear s
  | .shiftOut bits => Sys2Proof.Machine.execShiftOut bits s
  | .compose o => Sys2Proof.Machine.execCompose o s

end Sys2Proof.Machine
end

