-- ==== Sys2Proof/Machine/Loop.lean ====
section
/-! DEFINITION. Where the next operation comes from: the Control Loop (R171, R172, R174) or the command stream (R175). -/

namespace Sys2Proof.Machine

/-- Loop mode: BOOT in phase RESET; then SAMPLE, and COMPOSE of what the Application Logic yields, for ever
(R171, R172, R174). -/
def takeLoop (s : State) : Host.Outcome State Fault Refusal :=
  match s.phase, s.turn with
  | .reset, _ => exec .clear s
  | .running, .sample => exec .sample { s with turn := .compose }
  | .running, .compose =>
    let (o, s') := consult s
    exec (.compose o) { s' with turn := .sample }

/-- Command mode: the next word of the stream, decoded; an illegal word raises IllegalCommand; the run ends with
the list (R89, R175, R194). -/
def takeCommand (s : State) : Host.Outcome State Fault Refusal :=
  match s.commands with
  | [] => .refused .runEnded
  | w :: rest =>
    match decode w with
    | .ok i => exec i { s with commands := rest }
    | .error _ => .next (raiseFault (.illegalCommand w) { s with commands := rest })

/-- Take the next operation, `seq` being empty (R27). -/
def takeOperation (s : State) : Host.Outcome State Fault Refusal :=
  match s.mode with
  | .loop => takeLoop s
  | .command => takeCommand s

/-- `s` in command mode, between operations, with `w` as the next word of the stream (log 16). -/
def loadCommand (w : CommandWord) (s : State) : State :=
  { s with mode := .command, seq := [], booting := false, commands := w :: s.commands }

end Sys2Proof.Machine
end

