-- ==== Sys2Proof/Machine/Step.lean ====
section
/-! DEFINITION. One step of the machine: one pin access (R27, R175). -/

namespace Sys2Proof.Machine

/-- One step: none on a stopped machine (R28, R193); else the head of `seq`; with `seq` empty, the next operation
is taken and its first pin access performed (R27; log 6). -/
def step (s : State) : Host.Outcome State Fault Refusal :=
  match s.stopped with
  | some f => .fault f
  | none =>
    match s.seq with
    | [] => takeOperation s
    | _ :: _ => .next (advance s)

/-- `s` with the word `w` of `nbits` bits where `step` takes its next operation (log 16). -/
def State.withFetchWord (s : State) (nbits w : Nat) : State :=
  loadCommand (BitVec.ofNat 32 (w % 2 ^ nbits)) s

end Sys2Proof.Machine
end

