-- ==== Sys2Proof/Machine/Assembler.lean ====
section
/-! DEFINITION. The assembly form of the command words (R91) and the pseudo-operations (R92). -/

namespace Sys2Proof

/-- The source's name of an output signal (R83, R91). -/
def OutSignal.name : OutSignal → String
  | .alarm => "ALARM"
  | .bcdA => "BCD_A"
  | .bcdB => "BCD_B"
  | .bcdC => "BCD_C"
  | .bcdD => "BCD_D"
  | .segA => "SEG_A"
  | .segB => "SEG_B"
  | .segC => "SEG_C"
  | .segD => "SEG_D"
  | .segE => "SEG_E"
  | .segF => "SEG_F"
  | .segG => "SEG_G"
  | .cal => "CAL"
  | .lss => "LSS"
  | .lsl => "LSL"
  | .lms => "LMS"
  | .lml => "LML"
  | .strobeOut => "STROBE_OUT"
  | .dmx1 => "DMX1"
  | .dmx2 => "DMX2"
  | .dmx3 => "DMX3"
  | .dmx4 => "DMX4"
  | .dmx5 => "DMX5"
  | .dmx6 => "DMX6"
  | .dmx7 => "DMX7"
  | .dmx8 => "DMX8"

/-- The snapshot of `COMPOSE {name, ...}`: the listed signals are 1, all others 0 (R91). -/
def OutputSnapshot.ofNames (xs : List OutSignal) : OutputSnapshot :=
  .ofFn fun x => some (xs.contains x)

/-- The value of a hexadecimal digit (log 17: both cases of the letters are read). -/
def Asm.digit (c : Char) : Option Nat :=
  if '0' ≤ c ∧ c ≤ '9' then some (c.toNat - 48)
  else if 'A' ≤ c ∧ c ≤ 'F' then some (c.toNat - 55)
  else if 'a' ≤ c ∧ c ≤ 'f' then some (c.toNat - 87)
  else none

/-- The value of a number `0x` followed by exactly `n` hexadecimal digits (R91). -/
def Asm.number (n : Nat) (t : List Char) : Option Nat :=
  match t with
  | '0' :: 'x' :: ds =>
    if ds.length = n then
      ds.foldl (fun acc c => acc.bind fun v => (Asm.digit c).map (16 * v + ·)) (some 0)
    else none
  | _ => none

/-- The part of a line before its comment (R91). -/
def Asm.stripComment (line : List Char) : List Char :=
  line.takeWhile (· ≠ ';')

/-- The characters that are a token of their own: the two braces and the comma. -/
def Asm.isMark (c : Char) : Bool :=
  c.toNat = 123 || c.toNat = 125 || c = ','

/-- A word closed: the words so far with the pending one, if any. -/
def Asm.flush (words : List (List Char)) (pending : List Char) : List (List Char) :=
  if pending.isEmpty then words else words ++ [pending]

/-- The tokens of a line: words separated by spaces or tabs, and marks (log 17). -/
def Asm.tokens (line : List Char) : List (List Char) :=
  let r := line.foldl (fun (a : List (List Char) × List Char) c =>
    if c = ' ' ∨ c = '\t' then (Asm.flush a.1 a.2, [])
    else if Asm.isMark c then (Asm.flush a.1 a.2 ++ [[c]], [])
    else (a.1, a.2 ++ [c])) ([], [])
  Asm.flush r.1 r.2

/-- The signal with a given name. -/
def Asm.signal (t : List Char) : Option OutSignal :=
  OutSignal.all.find? fun x => x.name.toList = t

/-- Names separated by commas, up to the closing brace (R91). -/
def Asm.nameList : List (List Char) → Option (List OutSignal)
  | [n, [c]] => if c.toNat = 125 then (Asm.signal n).map ([·]) else none
  | n :: [c] :: rest =>
    if c = ',' then (Asm.signal n).bind fun x => (Asm.nameList rest).map (x :: ·) else none
  | _ => none

/-- What follows an opening brace: nothing or names, and the closing brace (R91). -/
def Asm.names (ts : List (List Char)) : Option (List OutSignal) :=
  if ts = [[Char.ofNat 125]] then some [] else Asm.nameList ts

/-- One statement of the assembly (R91, R92): `none` is a line that is none, `some none` an empty line. BOOT and
ITERATE have no command word (R90, R92). -/
def Asm.statement (line : List Char) : Option (Option Instr) :=
  match Asm.tokens (Asm.stripComment line) with
  | [] => some none
  | [m] =>
    if m = "SAMPLE".toList then some (some .sample)
    else if m = "CLEAR".toList ∨ m = "BLANK".toList then some (some .clear)
    else none
  | [m, a] =>
    if m = "SHIFT_OUT".toList then
      (Asm.number 6 a).map fun v => some (.shiftOut (valueToBits (BitVec.ofNat 24 v)))
    else if m = "COMPOSE".toList then
      (Asm.number 7 a).bind fun v =>
        if v ≤ 0x3FFFFFF then some (some (.compose (.unpack (BitVec.ofNat 26 v)))) else none
    else none
  | m :: [c] :: rest =>
    if m = "COMPOSE".toList ∧ c.toNat = 123 then
      (Asm.names rest).map fun xs => some (.compose (.ofNames xs))
    else none
  | _ => none

/-- The command word of one line of assembly, where it has one (R87, R91). -/
def Asm.word (line : String) : Option CommandWord :=
  (Asm.statement line.toList).join.map encode

end Sys2Proof
end

