-- ==== Sys2Proof/Machine/Flags.lean ====
section
/-! DEFINITION. The block has no flags and no condition codes (R26), so no flag is computed anywhere. What the
spec derives from the state by name stands here: quiescent and blanked (R18), the fault codes (R190). -/

namespace Sys2Proof.Machine

/-- Quiescent: `P[SCK] = 0`, `P[RCK] = 0` and no operation in progress (R18, R32). -/
abbrev Quiescent (s : State) : Prop :=
  s.P.sck = false ∧ s.P.rck = false ∧ s.seq = []

/-- Blanked: `L = 0`, `P[CAL] = 0`, `P[STROBE_OUT] = 0` (R18). -/
abbrev Blanked (s : State) : Prop :=
  s.L = 0#24 ∧ s.P.cal = false ∧ s.P.strobeOut = false

/-- The numeric code of a fault cause (R190). -/
def Fault.code : Fault → Nat
  | .frameLength _ => 1
  | .undefinedOutput _ => 2
  | .wiringTable _ => 3
  | .illegalCommand _ => 4

end Sys2Proof.Machine
end

