-- ==== Sys2Proof/Safety.lean ====
section
/-! DEFINITION. The words the claims use: runs, live machines, and the invariant of R32 and R34. -/

namespace Sys2Proof.Machine

/-- `n` steps of the machine, stopping at the first fault or refusal. -/
abbrev run (n : Nat) (s : State) : Host.Outcome State Fault Refusal :=
  Host.Core.run Sys2Proof.core n s

/-- A machine that exists (its wiring table passed the check, R193) and has no latched fault (R28). -/
abbrev Live (s : State) : Prop := s.stopped = none

/-- An operation can begin: the machine is live and quiescent (the precondition of R130, R134, R150). -/
abbrev Ready (s : State) : Prop := Live s ∧ Quiescent s

/-- A configuration that construction accepts (R86). -/
abbrev Config.Valid (c : Config) : Prop := Wiring.defect c.wiring = none

/-- The pin trace of SHIFT_OUT(V) as R130 writes it: the 24 bit cells in shift order, then the latch pulse. -/
def frameTrace (v : Frame) : List MicroOp :=
  ((List.range 24).flatMap fun k => [MicroOp.w .data (v.getLsbD (23 - k)), .w .sck true, .w .sck false]) ++
    [.w .rck true, .w .rck false]

/-- `ms` is the expansion of one of the four operations (R177). -/
def IsTrace (ms : List MicroOp) : Prop :=
  ms = sampleTrace ∨ ms = clearTrace ∨ (∃ bits : List Bit, bits.length = 24 ∧ ms = shiftOutTrace bits) ∨
    ∃ v c d, ms = composeTrace v c d

/-- How many writes of a trace go to line `x`. -/
def writesTo (x : Line) (ms : List MicroOp) : Nat :=
  ms.countP fun m => m = .w x false || m = .w x true

/-- Operation `i` begun at `s` performs the pin trace `ms` access by access (R15): it begins with the first one, each
step performs the next one, and after each the block and the reads are those the trace gives, the rest being `seq`. -/
def PerformsTrace (i : Instr) (ms : List MicroOp) (s : State) : Prop :=
  ∃ t : State, exec i s = .next t ∧ ∀ n, n < ms.length → ∃ u : State, run n t = .next u ∧
    u.P = (performAll (ms.take (n + 1)) s).P ∧ u.S = (performAll (ms.take (n + 1)) s).S ∧
    u.L = (performAll (ms.take (n + 1)) s).L ∧ u.I = (performAll (ms.take (n + 1)) s).I ∧
    u.reads = (performAll (ms.take (n + 1)) s).reads ∧ u.seq = ms.drop (n + 1)

/-- The state in which the operation in progress will end. -/
abbrev projected (s : State) : State := performAll s.seq s

/-- The invariant. Between operations `projected s` is `s`, so `quiet` is then R32 and `framed` is R34; within an
operation they say that the pin accesses still to come lead there. -/
structure Invariant (s : State) : Prop where
  /-- The machine was not rejected at construction (R33). -/
  valid : Config.Valid s.cfg
  /-- A latched fault has emptied `seq` (R198). -/
  faulted : s.fault ≠ none → s.seq = []
  /-- The boot CLEAR is in progress only in phase RESET, and only with accesses left (R27). -/
  boot : s.booting = true → s.phase = .reset ∧ s.seq ≠ []
  /-- R32: SCK and RCK rest low between operations. -/
  quiet : (projected s).P.sck = false ∧ (projected s).P.rck = false
  /-- R34: from the end of the boot CLEAR on, `S = L` between operations. -/
  framed : s.phase = .running ∨ s.booting = true → (projected s).S = (projected s).L

end Sys2Proof.Machine
end

