-- ==== Sys2Proof/Certificates/Slice0/Obligations.lean ====
section
/-! DEFINITION. The statements for the provers. "Log n" is notes/assumptions/n.md, "Dn" a decision of
spec/92_eei_decisions.md. -/

open Sys2Proof Sys2Proof.Machine

/-! ### Encoding -/

/-- Command words written out from R88 and the vectors of 95_test_vectors.md T6, legal and illegal. -/
def Obligations.DecodeReadsListedWords : Prop :=
  decode 0x10000000#32 = .ok .sample ∧
  decode 0x20000000#32 = .ok .clear ∧
  decode 0x30A5C33C#32 = .ok (.shiftOut
    [true, false, true, false, false, true, false, true, true, true, false, false, false, false, true, true,
     false, false, true, true, true, true, false, false]) ∧
  decode 0x40000420#32 = .ok (.compose (.ofFn fun x => some (x = .segA || x = .segF))) ∧
  decode 0x43FFFFFF#32 = .ok (.compose (.ofFn fun _ => some true)) ∧
  ∀ w ∈ [0x00000000#32, 0xFFFFFFFF#32, 0x50000000#32, 0x10000001#32, 0x20000001#32, 0x31000000#32, 0x32000000#32,
      0x34000000#32, 0x44000000#32, 0x48000000#32], (decode w).toOption = none

/-- Decoding the word of a well-formed operation gives the operation back: all 2^24 frames and all 2^26 defined
snapshots included (R87, R88; the command word is decision D12). -/
def Obligations.DecodeOfEncode : Prop :=
  ∀ i : Instr, i.WellFormed → decode (encode i) = .ok i

/-- Whatever word decodes, decodes to a well-formed operation whose word it is (R87: "always fully defined and
always of the right length"; D12). -/
def Obligations.EncodeOfDecode : Prop :=
  ∀ (w : CommandWord) (i : Instr), decode w = .ok i → i.WellFormed ∧ encode i = w

/-- The illegal words are exactly those R89 lists (D12). -/
def Obligations.IllegalWordsAreThoseListed : Prop :=
  ∀ w : CommandWord, (decode w).toOption = none ↔
    (w.extractLsb' 28 4 = 0x0#4 ∨ 0x5#4 ≤ w.extractLsb' 28 4) ∨
    w.extractLsb' 26 2 ≠ 0#2 ∨
    ((w.extractLsb' 28 4 = 0x1#4 ∨ w.extractLsb' 28 4 = 0x2#4) ∧ w.extractLsb' 0 26 ≠ 0#26) ∨
    (w.extractLsb' 28 4 = 0x3#4 ∧ w.extractLsb' 24 2 ≠ 0#2)

/-- The assembly of R91 and the pseudo-operation BLANK of R92 give the words of R88 and every word of the programs P1 to
P3 of 95_test_vectors.md, comments left out (D23; lexical details are log 17). -/
def Obligations.AssemblyGivesListedWords : Prop :=
  Asm.word "CLEAR ; comment" = some 0x20000000#32 ∧ Asm.word "BLANK" = some 0x20000000#32 ∧
  Asm.word "SAMPLE" = some 0x10000000#32 ∧
  Asm.word "SHIFT_OUT 0xA5C33C" = some 0x30A5C33C#32 ∧ Asm.word "SHIFT_OUT 0xA5C33" = none ∧
  Asm.word "COMPOSE 0x0000420" = some 0x40000420#32 ∧ Asm.word "COMPOSE 0x4000000" = none ∧
  Asm.word "COMPOSE ALARM" = none ∧
  Asm.word "SHIFT_OUT 0x030000" = some 0x30030000#32 ∧
  ∀ r ∈ [("SEG_A, SEG_F", 0x40000420#32), ("SEG_A, SEG_B, SEG_C, DMX1, CAL", 0x400410E0#32),
      ("ALARM, BCD_B, LSS, DMX3, STROBE_OUT", 0x40122005#32)],
    (Asm.statement ("COMPOSE ".toList ++ [Char.ofNat 123] ++ r.1.toList ++ [Char.ofNat 125])).join.map encode = some r.2

/-! ### Taking steps -/

/-- Between operations, in command mode, a step is the decoded operation begun on the state with the word taken
(R27, R175; D12, D14; log 6). -/
def Obligations.StepRunsDecodedWord : Prop :=
  ∀ (s : State) (w : CommandWord) (rest : List CommandWord) (i : Instr),
    Live s → s.seq = [] → s.mode = .command → s.commands = w :: rest → decode w = .ok i →
      step s = exec i { s with commands := rest }

/-- The loaded word is what the very next step runs (log 16; the model's choice, not a rule of the spec). -/
def Obligations.StepRunsLoadedWord : Prop :=
  ∀ (s : State) (w : CommandWord) (i : Instr), Live s → decode w = .ok i →
    step (s.withFetchWord 32 w.toNat) =
      exec i { s with mode := .command, seq := [], booting := false }

/-- While an operation is in progress a step performs the head of `seq` and removes it; the phase moves exactly when
the last access of the boot CLEAR has been performed (R27; D14; log 7). -/
def Obligations.StepPerformsHeadOfSeq : Prop :=
  ∀ (s : State) (m : MicroOp) (rest : List MicroOp), Live s → s.seq = m :: rest →
    step s = .next { perform m s with
      seq := rest
      phase := if rest = [] ∧ s.booting = true then .running else s.phase
      booting := if rest = [] then false else s.booting }

/-- Every step that raises no fault is exactly one pin access: the head of `seq`, or with `seq` empty the first access of
an operation's expansion, the others being left in `seq` (R27, R57, R175, R203; D14; log 6). -/
def Obligations.StepIsOnePinAccess : Prop :=
  ∀ s t : State, step s = .next t → t.fault = none →
    ∃ m : MicroOp, (s.seq = m :: t.seq ∨ s.seq = [] ∧ IsTrace (m :: t.seq)) ∧
      t.P = (perform m s).P ∧ t.S = (perform m s).S ∧ t.L = (perform m s).L ∧ t.I = (perform m s).I ∧
      t.inputs = (perform m s).inputs ∧ t.reads = (perform m s).reads

/-- The Control Loop at a boundary: BOOT in phase RESET, then SAMPLE and COMPOSE of the oracle's answer in turn
(R171, R172, R174; where the oracle's answer comes from is log 3, the field turn log 5). -/
def Obligations.LoopTakesOperationsInOrder : Prop :=
  ∀ s : State, Live s → s.seq = [] → s.mode = .loop →
    (s.phase = .reset → step s = exec .clear s) ∧
    (s.phase = .running → s.turn = .sample → step s = exec .sample { s with turn := .compose }) ∧
    (s.phase = .running → s.turn = .compose →
      step s = exec (.compose (consult s).1)
        { s with appAnswers := s.appAnswers.tail, appHistory := Config.appNext s.appHistory s.I, turn := .sample })

/-- In loop mode a live machine always has a next step: nothing blocks (R174, R177). -/
def Obligations.LoopNeverBlocks : Prop :=
  ∀ s : State, Live s → s.mode = .loop → ∃ t : State, step s = .next t

/-- No operation begins while another is in progress (R176, R231, U10; the refusal is the model's form of it, log 9). -/
def Obligations.NoOperationBeginsInsideAnother : Prop :=
  ∀ (i : Instr) (s : State), Live s → s.seq ≠ [] → exec i s = .refused .operationInProgress

/-! ### Pin primitives and the register chain -/

/-- PIN_WRITE: the level, and the chain's reaction to a rising edge of SCK or RCK; every other write changes only the
level (R110, R111, R112; the latch edge is decision D6, log 19). -/
def Obligations.PinWriteEffect : Prop :=
  ∀ (x : Line) (v : Bit) (s : State),
    pinWrite x v s = { s with
      P := s.P.set x v
      S := if x = .sck ∧ s.P.sck = false ∧ v = true then shiftIn s.S s.P.data else s.S
      L := if x = .rck ∧ s.P.rck = false ∧ v = true then s.S else s.L }

/-- Shift edge, stage by stage: stage 0 takes DATA, every other stage its lower neighbour (R22, R111; D5). -/
def Obligations.ShiftEdgeMovesEveryStage : Prop :=
  ∀ s : State, (shiftEdge s).S.getLsbD 0 = s.P.data ∧
    (∀ i, i < 23 → (shiftEdge s).S.getLsbD (i + 1) = s.S.getLsbD i) ∧
    (shiftEdge s).L = s.L ∧ outputVector (shiftEdge s) = outputVector s

/-- The three registers are cascaded: a shift edge feeds REG_C from DATA, REG_B from REG_C's last stage, REG_A from
REG_B's (R22; D4, D5). -/
def Obligations.RegistersAreCascaded : Prop :=
  ∀ s : State,
    regC (shiftEdge s).S = shiftIn (regC s.S) s.P.data ∧
    regB (shiftEdge s).S = shiftIn (regB s.S) (s.S.getLsbD 7) ∧
    regA (shiftEdge s).S = shiftIn (regA s.S) (s.S.getLsbD 15)

/-- PIN_READ: the level of the signal's own pin at this moment; nothing of the block changes, and the next read is of
the next moment (R113; the oracle's form is log 2). -/
def Obligations.PinReadReturnsLevel : Prop :=
  ∀ (n : InSignal) (s : State),
    readPin (inPin n) s = .ok (pinRead n s) ∧ 2 ≤ inPin n ∧ inPin n ≤ 13 ∧
    (pinRead n s).1 = (levelsAt s 0).getLsbD (inPin n - 2) ∧
    (pinRead n s).2 = { s with inputs := s.inputs.tail, reads := s.reads + 1 } ∧
    ∀ k, levelsAt (pinRead n s).2 k = levelsAt s (k + 1)

/-- Any pin but the block's five output lines is refused a write, any pin but 2 to 13 a read (R50, R110, R113; D26). -/
def Obligations.ForeignPinsAreRefused : Prop :=
  (∀ (p : Nat) (v : Bit) (s : State), p < 14 ∨ 18 < p → writePin p v s = .refused (.notABlockPin p)) ∧
  (∀ (x : Line) (v : Bit) (s : State), writePin x.pin v s = .next (pinWrite x v s)) ∧
  (∀ (p : Nat) (s : State), p < 2 ∨ 13 < p → readPin p s = .error (.notABlockPin p))

/-- SHIFT_BIT: from SCK low, one bit goes in; from SCK high there is no rising edge and the bit is lost (R114; D25). -/
def Obligations.BitCellEffect : Prop :=
  ∀ (b : Bit) (s : State),
    (s.P.sck = false →
      performAll (shiftBit b) s = { s with P := { s.P with data := b }, S := shiftIn s.S b }) ∧
    (s.P.sck = true →
      performAll (shiftBit b) s = { s with P := { s.P with data := b, sck := false } })

/-- LATCH_PULSE: two pin writes, `L <- S`, RCK low again, S unchanged; no other part of any operation writes RCK, and in
SHIFT_OUT it comes last (R115). -/
def Obligations.LatchPulseEffect : Prop :=
  (∀ s : State, s.P.rck = false → performAll latchPulse s = { s with L := s.S }) ∧
  latchPulse = [.w .rck true, .w .rck false] ∧
  (∀ bits : List Bit, shiftOutTrace bits = bits.flatMap shiftBit ++ latchPulse) ∧
  (∀ (v : Bit) (bits : List Bit), MicroOp.w .rck v ∉ bits.flatMap shiftBit) ∧
  (∀ v c d : Bit, MicroOp.w .rck v ∉ directWrite c d) ∧
  (∀ v : Bit, MicroOp.w .rck v ∉ sampleTrace) ∧
  clearTrace = shiftOutTrace (valueToBits 0#24) ++ directWrite false false ∧
  ∀ (v : Frame) (c d : Bit),
    composeTrace v c d = clearTrace ++ shiftOutTrace (valueToBits v) ++ directWrite c d

/-- DIRECT_WRITE: two pin writes, CAL first, which set the two direct levels and nothing else; after the first of them the
output vector shows the new CAL and the old STROBE_OUT (R116; the order is decision D9). -/
def Obligations.DirectWriteEffect : Prop :=
  ∀ (c d : Bit) (s : State),
    directWrite c d = [.w .cal c, .w .strobeOut d] ∧
    performAll (directWrite c d) s = { s with P := { s.P with cal := c, strobeOut := d } } ∧
    performAll ((directWrite c d).take 1) s = { s with P := { s.P with cal := c } } ∧
    outputVector (performAll ((directWrite c d).take 1) s) = (s.L, c, s.P.strobeOut)

/-! ### Shift-Register Driver -/

/-- SHIFT_OUT of 24 bits, from any state in which it can begin: it begins, and after its 74 pin writes `S = L = V`,
DATA holds the last bit, and nothing else has changed (R130, R131; D25). -/
def Obligations.ShiftOutResult : Prop :=
  ∀ (bits : List Bit) (s : State), Ready s → bits.length = 24 →
    ∃ t : State, exec (.shiftOut bits) s = .next t ∧
      run 73 t = .next { s with
        P := { s.P with data := (bitsToValue 24 bits).getLsbD 0 }
        S := bitsToValue 24 bits
        L := bitsToValue 24 bits
        booting := false }

/-- SHIFT_OUT, in the abstract form or from its command word, performs its pin trace, one write a step: 24 bit cells,
`V[23]` first and `V[0]` last, then one latch pulse; L
keeps its old value through the 72 writes of the cells and changes once, at the rising edge of the latch pulse; a
sequence of another length faults (R130). -/
def Obligations.ShiftOutPerformsItsTrace : Prop :=
  (∀ v : Frame, decode (0x30000000#32 ||| v.setWidth 32) = .ok (.shiftOut (valueToBits v))) ∧
  (∀ (v : Frame) (s : State), Ready s →
    ∃ t : State, exec (.shiftOut (valueToBits v)) s = .next t ∧
      (∀ n, n < 74 → ∃ u : State, run n t = .next u ∧
        (∃ (ms : List MicroOp) (e : State),
          ms = ((List.range 24).flatMap fun k =>
            [MicroOp.w .data (v.getLsbD (23 - k)), .w .sck true, .w .sck false]) ++ [.w .rck true, .w .rck false] ∧
          e = performAll (ms.take (n + 1)) s ∧ u.P = e.P ∧ u.S = e.S ∧ u.L = e.L) ∧
        u.L = if n < 72 then s.L else v) ∧
      ∃ u : State, run 73 t = .next u ∧ Quiescent u ∧ u.S = v ∧ u.L = v ∧ u.P.data = v.getLsbD 0) ∧
  ∀ (bits : List Bit) (s : State), Ready s → bits.length ≠ 24 →
    ∃ t : State, exec (.shiftOut bits) s = .next t ∧ t.fault = some (.frameLength bits.length)

/-- Round trip: the readback harness reads the bits shifted out, in order (R133; D5). -/
def Obligations.ReadbackGivesTheFrame : Prop :=
  ∀ (bits : List Bit) (s : State), Ready s → bits.length = 24 →
    ∃ t u : State, exec (.shiftOut bits) s = .next t ∧ run 73 t = .next u ∧ readback u = bits

/-- Inside SHIFT_OUT, after each of its 74 writes: the stages hold as many new bits below the old ones as there have been
rising edges of SCK (`j` of them once `j` bit cells are complete), and the output vector is the old one until the latch
edge, the 73rd write, and the frame from then on (R132; D6, log 19). -/
def Obligations.StateInsideShiftOut : Prop :=
  ∀ (v : Frame) (s : State), Ready s →
    ∃ t : State, exec (.shiftOut (valueToBits v)) s = .next t ∧
      ∀ n, n < 74 → ∃ u : State, run n t = .next u ∧
        outputVector u = (if n < 72 then s.L else v, s.P.cal, s.P.strobeOut) ∧
        ∀ j, j = min 24 ((n + 2) / 3) → u.S = (s.S <<< j) ||| (v >>> (24 - j))

/-- SHIFT_OUT of any other number of bits raises FrameLength before any pin write: only the latch and `seq` change
(R138, R191, R198; D11; log 6). -/
def Obligations.WrongFrameLengthFaults : Prop :=
  ∀ (bits : List Bit) (s : State), Live s → s.seq = [] → bits.length ≠ 24 →
    exec (.shiftOut bits) s = .next { s with fault := some (.frameLength bits.length) }

/-- CLEAR: it begins, and after its 76 pin writes everything is blank and the phase is RUNNING; nothing else has changed
(R134, R135; D3; that a CLEAR performed in phase RESET ends it is log 7). -/
def Obligations.ClearResult : Prop :=
  ∀ s : State, Ready s →
    ∃ t : State, exec .clear s = .next t ∧
      run 75 t = .next { s with
        P := { data := false, sck := false, rck := false, cal := false, strobeOut := false }
        S := 0x000000#24
        L := 0x000000#24
        phase := .running
        booting := false }

/-- CLEAR is idempotent on the state: a second one, which performs its 76 writes again, ends where it began (R136). -/
def Obligations.ClearIsIdempotent : Prop :=
  ∀ s : State, Ready s →
    ∃ t u t' : State, exec .clear s = .next t ∧ run 75 t = .next u ∧ Blanked u ∧ Ready u ∧
      exec .clear u = .next t' ∧ t'.seq.length = 75 ∧ run 75 t' = .next u

/-- During CLEAR the output vector goes through these values and no others, after each of its 76 writes (R135;
D3, D6 with log 19, D9). -/
def Obligations.OutputsSeenDuringClear : Prop :=
  ∀ s : State, Ready s →
    ∃ t : State, exec .clear s = .next t ∧
      ∀ n, n < 76 → ∃ u : State, run n t = .next u ∧
        outputVector u =
          if n < 72 then (s.L, s.P.cal, s.P.strobeOut)
          else if n < 74 then (0#24, s.P.cal, s.P.strobeOut)
          else if n < 75 then (0#24, false, s.P.strobeOut)
          else (0#24, false, false)

/-! ### Output Composer -/

/-- The enumerated wiring table, position by position, on a snapshot with every value defined (R81, R85; D1, D2). -/
def Obligations.StandardWiringIsTheEnumeratedTable : Prop :=
  ∀ o : OutputSnapshot, o.allDefined = true →
    (valueToBits (assemble .standard o)).map some =
      [o.alarm, o.bcdA, o.bcdB, o.bcdD, o.bcdC, o.segG, o.segA, o.segF,
       o.segD, o.segC, o.segB, o.segE, o.lms, o.lml, o.lss, o.lsl,
       o.dmx8, o.dmx6, o.dmx4, o.dmx2, o.dmx1, o.dmx3, o.dmx5, o.dmx7]

/-- ASSEMBLE is injective on the 24 frame-bound values and onto the 24-bit values, for every wiring table that passes
the check and every mask (R85). -/
def Obligations.AssembleIsBijective : Prop :=
  ∀ c : Config, Config.Valid c →
    (∀ o o' : OutputSnapshot, o.allDefined = true → o'.allDefined = true → assemble c o = assemble c o' →
      ∀ x : OutSignal, x ≠ .cal → x ≠ .strobeOut → o.get x = o'.get x) ∧
    ∀ v : Frame, ∃ o : OutputSnapshot, o.allDefined = true ∧ assemble c o = v

/-- ASSEMBLE reads neither CAL nor STROBE_OUT (R85), for every wiring table that passes the check. -/
def Obligations.AssembleIgnoresDirectSignals : Prop :=
  ∀ (c : Config) (o o' : OutputSnapshot), Config.Valid c →
    (∀ x : OutSignal, x ≠ .cal → x ≠ .strobeOut → o.get x = o'.get x) → assemble c o = assemble c o'

/-- The validity check accepts exactly the tables of 24 positions that hold the 24 frame-bound signals, each once: a
bijection (R86; D1). -/
def Obligations.WiringCheckIsBijection : Prop :=
  ∀ table : List WiringEntry, Wiring.defect table = none ↔
    table.length = 24 ∧ ∃ xs : List OutSignal, table = xs.map .signal ∧ xs.Nodup ∧
      ∀ x : OutSignal, x ∈ xs ↔ x ≠ .cal ∧ x ≠ .strobeOut

/-- A configuration whose table fails the check has no machine: construction faults with WiringTable; any other is
built in its reset state (R33, R193). That a state with such a configuration stops with that fault at every step is the
model's choice (log 8), and so is which failed check is recorded where several fail (log 20). -/
def Obligations.MalformedWiringHasNoMachine : Prop :=
  ∀ (c : Config) (d : ResetDraws),
    (∀ x : WiringDefect, Wiring.defect c.wiring = some x →
      construct c d = .fault (.wiringTable x) ∧
      ∀ s : State, s.cfg = c → s.fault = none →
        step s = .fault (.wiringTable x) ∧ ∀ n, run (n + 1) s = .fault (.wiringTable x)) ∧
    (Config.Valid c → construct c d = .next (.resetWith c d)) ∧
    Config.Valid .standard

/-- COMPOSE of a snapshot with every value defined: it begins, and after its 152 pin writes `S = L = ASSEMBLE(O)`, the two
direct lines show their signals, DATA holds the last bit, and nothing else has changed (R150, R151; D3, D9, D25). -/
def Obligations.ComposeResult : Prop :=
  ∀ (o : OutputSnapshot) (c d : Bit) (s : State),
    Ready s → o.allDefined = true → o.cal = some c → o.strobeOut = some d →
    ∃ t : State, exec (.compose o) s = .next t ∧
      run 151 t = .next { s with
        P := { s.P with data := (assemble s.cfg o).getLsbD 0, cal := c, strobeOut := d }
        S := assemble s.cfg o
        L := assemble s.cfg o
        booting := false }

/-- What an observer of the output vector sees after each of the 152 writes of COMPOSE: the old outputs, the blank frame,
the direct lines falling one after the other, the new frame, then each direct line (R152, R229; D3,
D6 with log 19, D9). -/
def Obligations.OutputsSeenDuringCompose : Prop :=
  ∀ (o : OutputSnapshot) (c d : Bit) (s : State),
    Ready s → o.allDefined = true → o.cal = some c → o.strobeOut = some d →
    ∃ t : State, exec (.compose o) s = .next t ∧
      ∀ n, n < 152 → ∃ u : State, run n t = .next u ∧
        outputVector u =
          if n < 72 then (s.L, s.P.cal, s.P.strobeOut)
          else if n < 74 then (0#24, s.P.cal, s.P.strobeOut)
          else if n < 75 then (0#24, false, s.P.strobeOut)
          else if n < 148 then (0#24, false, false)
          else if n < 150 then (assemble s.cfg o, false, false)
          else if n < 151 then (assemble s.cfg o, c, false)
          else (assemble s.cfg o, c, d)

/-- After COMPOSE every one of the 26 physical output lines shows the value of the logical signal bound to it, for every
wiring table that passes the check, with the mask of this hardware (R24, R82, R151; D2). -/
def Obligations.EveryOutputLineShowsItsSignal : Prop :=
  ∀ (o : OutputSnapshot) (s : State),
    Ready s → o.allDefined = true → s.cfg.polarityMask = 0x000000#24 →
    ∃ t u : State, exec (.compose o) s = .next t ∧ run 151 t = .next u ∧
      ∀ x : OutSignal, outputLine u x = o.get x

/-- The all-zero snapshot ends in the physical state of CLEAR (R153; with mask 0, D2). -/
def Obligations.ComposeZeroEqualsClear : Prop :=
  ∀ s : State, Ready s → s.cfg.polarityMask = 0x000000#24 →
    ∃ t u t' u' : State,
      exec (.compose (.ofFn fun _ => some false)) s = .next t ∧ run 151 t = .next u ∧
      exec .clear s = .next t' ∧ run 75 t' = .next u' ∧
      u.P = u'.P ∧ u.S = u'.S ∧ u.L = u'.L

/-- No residue: two machines of one configuration that compose the same snapshot end in the same physical state, whatever
they showed before (R154). -/
def Obligations.ComposeLeavesNoResidue : Prop :=
  ∀ (o : OutputSnapshot) (s s' : State),
    Ready s → Ready s' → s.cfg = s'.cfg → o.allDefined = true →
    ∃ t u t' u' : State,
      exec (.compose o) s = .next t ∧ run 151 t = .next u ∧
      exec (.compose o) s' = .next t' ∧ run 151 t' = .next u' ∧
      u.P = u'.P ∧ u.S = u'.S ∧ u.L = u'.L

/-- The source's scenario, SEG_A and SEG_F at 1 and all else 0, on this hardware's configuration (R155; D1, D2). -/
def Obligations.ComposeSegASegF : Prop :=
  ∀ s : State, Ready s → s.cfg = .standard →
    ∃ t u : State,
      exec (.compose (.ofFn fun x => some (x = .segA || x = .segF))) s = .next t ∧ run 151 t = .next u ∧
      u.S = 0x030000#24 ∧ u.L = 0x030000#24 ∧ u.P.cal = false ∧ u.P.strobeOut = false

/-- COMPOSE with an undefined value raises UndefinedOutput, naming the first undefined signal in `O`-bit order, before any
pin write: only the latch changes (R157, R192, R197, R198; D11; log 6). -/
def Obligations.UndefinedOutputFaults : Prop :=
  ∀ (o : OutputSnapshot) (x : OutSignal) (s : State), Live s → s.seq = [] →
    o.get x = none → (∀ y : OutSignal, y.bit < x.bit → o.get y ≠ none) →
    exec (.compose o) s = .next { s with fault := some (.undefinedOutput x) }

/-! ### Input Sampler and Control Loop -/

/-- SAMPLE: it begins, and after its 12 reads `I[n]` is the level of pin `2 + n` at the moment of the `n`-th read; no line,
stage, latch or anything else of the block has changed (R170; D10, D17; log 2, log 4). -/
def Obligations.SampleResult : Prop :=
  ∀ s : State, Ready s →
    ∃ (t : State) (i : InputSnapshot), exec .sample s = .next t ∧
      run 11 t = .next { s with
        I := i, inputs := s.inputs.drop 12, reads := s.reads + 12, booting := false } ∧
      ∀ n, n < 12 → i.getLsbD n = (levelsAt s n).getLsbD n

/-- Pins that stay at their levels during the 12 reads are sampled as they are; the source's scenario, only pin 5 high
gives LST_LSP = 1 and the other 11 fields 0, is the case 0x008 (R9, R84, R170). -/
def Obligations.SampleOfSteadyPins : Prop :=
  ∀ (s : State) (v : InputSnapshot) (later : List InputSnapshot), Ready s →
    s.inputs = List.replicate 12 v ++ later →
    ∃ t u : State, exec .sample s = .next t ∧ run 11 t = .next u ∧ u.I = v ∧
      (v = 0x008#12 → ∀ n : InSignal, u.I.getLsbD n.bit = decide (n = .lstLsp))

/-- One ITERATE: 12 reads, the oracle, then 152 writes; it ends showing the frame composed and the next ITERATE begins at
once; an answer with an undefined value raises UndefinedOutput from the COMPOSE (R172; where the answer comes from is
log 3, the field turn log 5). -/
def Obligations.IterateResult : Prop :=
  ∀ s : State, Ready s → s.mode = .loop → s.phase = .running → s.turn = .sample →
    step s = exec .sample { s with turn := .compose } ∧
    ∃ m : State, run 12 s = .next m ∧
      step m = exec (.compose (consult m).1) { (consult m).2 with turn := .sample } ∧
      (∀ n, n < 12 → m.I.getLsbD n = (levelsAt s n).getLsbD n) ∧ m.reads = s.reads + 12 ∧
      m.P = s.P ∧ m.S = s.S ∧ m.L = s.L ∧
      ((consult m).1.allDefined = false →
        ∃ (t : State) (x : OutSignal), step m = .next t ∧ t.fault = some (.undefinedOutput x)) ∧
      ((consult m).1.allDefined = true →
        ∃ u : State, run 152 m = .next u ∧ u.reads = m.reads ∧
          step u = exec .sample { u with turn := .compose } ∧
          Ready u ∧ u.mode = .loop ∧ u.phase = .running ∧ u.turn = .sample ∧
          u.S = assemble s.cfg (consult m).1 ∧ u.L = assemble s.cfg (consult m).1 ∧
          some u.P.cal = (consult m).1.cal ∧ some u.P.strobeOut = (consult m).1.strobeOut)

/-- An oracle that leaves a value undefined stops the loop after its 12 reads and before any write (R157, R172, R198;
95_test_vectors.md P6; D11, D16; log 3, log 5). -/
def Obligations.UndefinedAnswerStopsTheLoop : Prop :=
  ∀ (s : State) (x : OutSignal), Ready s → s.mode = .loop → s.phase = .running → s.turn = .compose →
    (consult s).1.get x = none → (∀ y : OutSignal, y.bit < x.bit → (consult s).1.get y ≠ none) →
    ∃ t : State, step s = .next t ∧ t.fault = some (.undefinedOutput x) ∧
      t.P = s.P ∧ t.S = s.S ∧ t.L = s.L ∧ t.phase = s.phase ∧ t.reads = s.reads ∧
      ∀ n, run (n + 1) t = .fault (.undefinedOutput x)

/-- How many pin accesses each operation performs, line by line and edge by edge: SAMPLE only reads, the three others
only write (R137, R156, R177). -/
def Obligations.OperationAccessCounts : Prop :=
  (sampleTrace.length = 12 ∧ ∀ m ∈ sampleTrace, ∃ n, m = .rd n) ∧
  (∀ bits : List Bit, bits.length = 24 →
    (shiftOutTrace bits).length = 74 ∧ writesTo .data (shiftOutTrace bits) = 24 ∧
    (shiftOutTrace bits).count (.w .sck true) = 24 ∧ (shiftOutTrace bits).count (.w .sck false) = 24 ∧
    (shiftOutTrace bits).count (.w .rck true) = 1 ∧ (shiftOutTrace bits).count (.w .rck false) = 1 ∧
    writesTo .cal (shiftOutTrace bits) = 0 ∧ writesTo .strobeOut (shiftOutTrace bits) = 0 ∧
    ∀ n, .rd n ∉ shiftOutTrace bits) ∧
  (clearTrace.length = 76 ∧ writesTo .data clearTrace = 24 ∧
    clearTrace.count (.w .sck true) = 24 ∧ clearTrace.count (.w .sck false) = 24 ∧
    clearTrace.count (.w .rck true) = 1 ∧ clearTrace.count (.w .rck false) = 1 ∧
    writesTo .cal clearTrace = 1 ∧ writesTo .strobeOut clearTrace = 1 ∧ ∀ n, .rd n ∉ clearTrace) ∧
  ∀ (v : Frame) (c d : Bit),
    (composeTrace v c d).length = 152 ∧ writesTo .data (composeTrace v c d) = 48 ∧
    (composeTrace v c d).count (.w .sck true) = 48 ∧ (composeTrace v c d).count (.w .sck false) = 48 ∧
    (composeTrace v c d).count (.w .rck true) = 2 ∧ (composeTrace v c d).count (.w .rck false) = 2 ∧
    writesTo .cal (composeTrace v c d) = 2 ∧ writesTo .strobeOut (composeTrace v c d) = 2 ∧
    ∀ n, .rd n ∉ composeTrace v c d

/-! ### Reset and boot -/

/-- What reset leaves, of the values the spec states, for every configuration and every draw (R30, R220; D8); State.reset
has the standard configuration (log 8) and draws nothing is known of (log 1). -/
def Obligations.ResetState : Prop :=
  ∀ (c : Config) (d : ResetDraws),
    (State.resetWith c d).P = { data := d.data, sck := false, rck := false, cal := d.cal, strobeOut := d.strobe } ∧
    (State.resetWith c d).S = d.s ∧ (State.resetWith c d).L = d.l ∧
    (State.resetWith c d).phase = .reset ∧ (State.resetWith c d).seq = [] ∧
    (State.resetWith c d).fault = none ∧
    State.reset = .resetWith .standard Config.resetDraws ∧ Config.Valid .standard

/-- BOOT: the first thing the sequencer does after reset, in phase RESET, is one CLEAR, then the phase is RUNNING; so
whatever the draws were, after 76 steps everything is blank, and until the last of them the phase is RESET (R171, and
R31 and R221, which the spec derives; that the latches are blank from the 73rd write on and CAL from the 75th rests on
D3, D6 with log 19, and D9; that reset is in loop mode is log 5; D8). -/
def Obligations.BootBlanksWhateverTheDraws : Prop :=
  ∀ (c : Config) (d : ResetDraws), Config.Valid c →
    step (.resetWith c d) = exec .clear (.resetWith c d) ∧
    run 76 (.resetWith c d) = .next { State.resetWith c d with
      P := { data := false, sck := false, rck := false, cal := false, strobeOut := false }
      S := 0x000000#24
      L := 0x000000#24
      phase := .running } ∧
    ∀ n, n < 76 → ∃ u : State, run n (.resetWith c d) = .next u ∧ u.phase = .reset ∧
      (73 ≤ n → u.L = 0#24) ∧ (75 ≤ n → u.P.cal = false)

/-! ### Faults -/

/-- In command mode an illegal word raises IllegalCommand with the word, before any pin access (R89, R194, R198; D11, D12;
that the word is taken from the list is log 11, that raising is a step log 6). -/
def Obligations.IllegalWordFaults : Prop :=
  ∀ (s : State) (w : CommandWord) (rest : List CommandWord),
    Live s → s.seq = [] → s.mode = .command → s.commands = w :: rest → (decode w).toOption = none →
    step s = .next { s with commands := rest, fault := some (.illegalCommand w) }

/-- What is not a fault: whatever the operands of a well-formed operation and whatever the pins present, it begins, every
pin access of it succeeds, and it finishes (R195). -/
def Obligations.WellFormedOperationsNeverFault : Prop :=
  ∀ (i : Instr) (s : State), Live s → s.seq = [] → i.WellFormed →
    ∃ t u : State, exec i s = .next t ∧ t.fault = none ∧
      run t.seq.length t = .next u ∧ u.seq = [] ∧ u.fault = none

/-- A fault raised by a step is precise: no operation was in progress, no line, stage or latch has changed, no pin has been
read, the phase is the same, and `seq` is empty (R198; D11; log 6). -/
def Obligations.FaultEntryIsPrecise : Prop :=
  ∀ (s t : State) (f : Fault), step s = .next t → t.fault = some f →
    s.seq = [] ∧ s.fault = none ∧ t.seq = [] ∧ t.P = s.P ∧ t.S = s.S ∧ t.L = s.L ∧ t.phase = s.phase ∧
    t.reads = s.reads ∧ t.I = s.I ∧ t.cfg = s.cfg

/-- A latched fault stops the machine for good: no step and no run (R28, R198, R199; D11); and exec of any operation then
answers that fault, which is the model's choice (log 9). -/
def Obligations.FaultStopsTheMachine : Prop :=
  ∀ (s : State) (f : Fault), s.fault = some f →
    step s = .fault f ∧ (∀ i : Instr, exec i s = .fault f) ∧ ∀ n, run (n + 1) s = .fault f

/-! ### What every step keeps -/

/-- The invariant holds after reset, for every configuration that construction accepts and every draw. -/
def Obligations.InvariantAtReset : Prop :=
  (∀ (c : Config) (d : ResetDraws), Config.Valid c → Invariant (.resetWith c d)) ∧ Invariant State.reset

/-- Every step keeps the invariant; so between operations SCK and RCK rest low (R32) and, from the end of the boot CLEAR on,
the stages equal the latches (R34). -/
def Obligations.StepKeepsInvariant : Prop :=
  ∀ s t : State, Invariant s → step s = .next t → Invariant t

/-- Between operations: R32, and both halves of R34. The invariant gives the quiescent state and `S = L`; and every
operation leaves in all 24 latches the frame of its last SHIFT_OUT or CLEAR, SAMPLE, which has none, leaving them as
they were, so between operations the latches hold the frame most recently shifted. -/
def Obligations.InvariantBetweenOperations : Prop :=
  (∀ s : State, Invariant s → s.seq = [] →
    Quiescent s ∧ s.booting = false ∧ (s.phase = .running → s.S = s.L)) ∧
  ∀ (i : Instr) (s : State), Ready s → i.WellFormed →
    ∃ t u : State, exec i s = .next t ∧ run t.seq.length t = .next u ∧ u.seq = [] ∧
      u.L = match i with
        | .sample => s.L
        | .clear => 0x000000#24
        | .shiftOut bits => bitsToValue 24 bits
        | .compose o => assemble s.cfg o

/-- The latches, and so the register outputs, change only at a rising edge of RCK, and then they take the stages
(R23, R112; D6, log 19). -/
def Obligations.LatchesChangeOnlyAtLatchEdge : Prop :=
  ∀ s t : State, step s = .next t →
    t.L = s.L ∨ (s.P.rck = false ∧ t.P.rck = true ∧ t.L = s.S ∧ t.S = s.S)

/-- The stages change only at a rising edge of SCK, and then they shift DATA in (R22, R111; D5). -/
def Obligations.StagesChangeOnlyAtShiftEdge : Prop :=
  ∀ s t : State, step s = .next t →
    t.S = s.S ∨ (s.P.sck = false ∧ t.P.sck = true ∧ t.S = shiftIn s.S s.P.data ∧ t.L = s.L)

/-- The phase never moves back, and moves only at the last access of the boot CLEAR (R27; D14). -/
def Obligations.PhaseMovesOnceAtEndOfBoot : Prop :=
  ∀ s t : State, step s = .next t →
    (s.phase = .running → t.phase = .running) ∧
    (s.phase = .reset → t.phase = .running → s.booting = true ∧ t.seq = [] ∧ ∃ m, s.seq = [m])

/-- No step writes the configuration, and the command stream is only read, in order (R33, R60; D22; the fields cfg and mode are logs 8 and 5). -/
def Obligations.ConstantsAreNeverWritten : Prop :=
  ∀ s t : State, step s = .next t →
    t.cfg = s.cfg ∧ t.mode = s.mode ∧ (t.commands = s.commands ∨ ∃ w, s.commands = w :: t.commands)

/-- Within every operation DATA is written only while SCK and RCK are low, so it is stable from the rising to the falling
edge of the clock (R62, R223; D21). -/
def Obligations.DataChangesOnlyWhileClockIsLow : Prop :=
  ∀ (ms before after : List MicroOp) (b : Bit) (s : State),
    (ms = clearTrace ∨ (∃ bits, ms = shiftOutTrace bits) ∨ ∃ v c d, ms = composeTrace v c d) →
    s.P.sck = false → s.P.rck = false → ms = before ++ .w .data b :: after →
    (performAll before s).P.sck = false ∧ (performAll before s).P.rck = false

/-! ### Pin traces -/

/-- Each operation performs its pin trace, write by write or read by read: SAMPLE `Rd(2)` to `Rd(13)`; CLEAR the zero
frame, then CAL and STROBE_OUT low; SHIFT_OUT its frame; COMPOSE the trace of CLEAR, the assembled frame, then CAL and
STROBE_OUT (R15, R130, R134, R150, R170; D3, D9, D10; log 6). -/
def Obligations.OperationsPerformTheirTraces : Prop :=
  ∀ s : State, Ready s →
    PerformsTrace .sample
      [.rd .gr, .rd .eosc, .rd .z, .rd .lstLsp, .rd .doRy, .rd .mc0, .rd .mc1, .rd .sstSsp, .rd .nulLap, .rd .chodFo,
       .rd .phase, .rd .strobeIn] s ∧
    PerformsTrace .clear (frameTrace 0x000000#24 ++ [.w .cal false, .w .strobeOut false]) s ∧
    (∀ v : Frame, PerformsTrace (.shiftOut (valueToBits v)) (frameTrace v) s) ∧
    ∀ (o : OutputSnapshot) (c d : Bit), o.allDefined = true → o.cal = some c → o.strobeOut = some d →
      PerformsTrace (.compose o)
        (frameTrace 0x000000#24 ++ [.w .cal false, .w .strobeOut false] ++
          frameTrace (assemble s.cfg o) ++ [.w .cal c, .w .strobeOut d]) s
end

