-- ==== Sys2Proof/Laws/Bits.lean ====
section
/-! SUPPORT. Lemmas on bit order: shifting in, and numbers against bit sequences (R11, R52). -/

namespace Sys2Proof

/-- Bit 0 is the bit shifted in, every other bit its lower neighbour. -/
theorem getLsbD_shiftIn {n : Nat} (v : BitVec n) (b : Bit) (i : Nat) :
    (shiftIn v b).getLsbD i = (decide (i < n) && if i = 0 then b else v.getLsbD (i - 1)) := by
  unfold shiftIn
  by_cases hn : i < n
  · rcases i with _ | i
    · cases b <;> simp [hn]
    · cases b <;> simp [hn, Nat.lt_of_succ_lt]
  · simp [hn]

/-- After shifting a sequence into `v`, bit `i` is the `i`-th from the end of the sequence, and above it the old
bits moved up. -/
theorem getLsbD_foldl_shiftIn {n : Nat} (bits : List Bit) (v : BitVec n) (i : Nat) :
    (bits.foldl shiftIn v).getLsbD i =
      (decide (i < n) &&
        if i < bits.length then bits.getD (bits.length - 1 - i) false else v.getLsbD (i - bits.length)) := by
  induction bits generalizing v with
  | nil =>
    by_cases h : i < n
    · simp [h]
    · simp [h, Nat.le_of_not_lt h]
  | cons b bits ih =>
    rw [List.foldl_cons, ih, getLsbD_shiftIn]
    by_cases h : i < n
    · rcases Nat.lt_trichotomy i bits.length with h1 | h1 | h1
      · have e : (b :: bits).length - 1 - i = (bits.length - 1 - i) + 1 := by simp; omega
        simp only [h, h1, e, List.getD_cons_succ, if_true, decide_true, Bool.true_and]
        rw [if_pos (by simp; omega)]
      · subst h1
        simp [h, Nat.zero_lt_of_lt h]
      · have e1 : ¬ i < bits.length := by omega
        have e2 : ¬ i < (b :: bits).length := by simp; omega
        have e3 : i - bits.length ≠ 0 := by omega
        have e4 : i - bits.length < n := by omega
        have e5 : i - bits.length - 1 = i - (b :: bits).length := by simp; omega
        simp only [h, e1, e2, e3, e4, e5, if_false, decide_true, Bool.true_and]
    · simp [h]

/-- Bit `i` of the number a sequence stands for. -/
theorem getLsbD_bitsToValue (n : Nat) (bits : List Bit) (i : Nat) :
    (bitsToValue n bits).getLsbD i =
      (decide (i < n) && decide (i < bits.length) && bits.getD (bits.length - 1 - i) false) := by
  unfold bitsToValue
  rw [getLsbD_foldl_shiftIn]
  by_cases h : i < bits.length <;> simp [h]

@[simp] theorem length_valueToBits {n : Nat} (v : BitVec n) : (valueToBits v).length = n := by
  simp [valueToBits]

theorem getD_valueToBits {n : Nat} (v : BitVec n) (k : Nat) (h : k < n) :
    (valueToBits v).getD k false = v.getLsbD (n - 1 - k) := by
  simp [valueToBits, List.getD, h]

/-- The bits of a number stand for that number. -/
@[simp] theorem bitsToValue_valueToBits {n : Nat} (v : BitVec n) : bitsToValue n (valueToBits v) = v := by
  apply BitVec.eq_of_getLsbD_eq
  intro i hi
  rw [getLsbD_bitsToValue, length_valueToBits, getD_valueToBits v _ (by omega)]
  simp only [hi, decide_true, Bool.true_and]
  congr 1
  omega

/-- A sequence of the right length is given back by the number it stands for. -/
theorem valueToBits_bitsToValue {n : Nat} (bits : List Bit) (h : bits.length = n) :
    valueToBits (bitsToValue n bits) = bits := by
  apply List.ext_getElem
  · simp [h]
  · intro k h1 h2
    have hk : k < n := by simpa using h1
    have := getD_valueToBits (bitsToValue n bits) k hk
    rw [getLsbD_bitsToValue, h] at this
    have e : n - 1 - (n - 1 - k) = k := by omega
    rw [e] at this
    simp only [show n - 1 - k < n by omega, decide_true, Bool.true_and] at this
    rwa [List.getD_eq_getElem _ _ h1, List.getD_eq_getElem _ _ h2] at this

/-- Shifting a full-length sequence into anything leaves the number it stands for: no old bit survives (R131). -/
theorem foldl_shiftIn_full {n : Nat} (bits : List Bit) (v : BitVec n) (h : bits.length = n) :
    bits.foldl shiftIn v = bitsToValue n bits := by
  apply BitVec.eq_of_getLsbD_eq
  intro i hi
  rw [getLsbD_foldl_shiftIn, getLsbD_bitsToValue]
  simp [h, hi]

/-! ### The snapshot packing -/

/-- The packed index is the position in the source's list (R83). -/
theorem OutSignal.getElem_all (x : OutSignal) : OutSignal.all[x.bit]? = some x := by
  cases x <;> rfl

theorem OutSignal.bit_lt (x : OutSignal) : x.bit < 26 := by
  cases x <;> decide

theorem OutSignal.mem_all (x : OutSignal) : x ∈ OutSignal.all :=
  List.mem_of_getElem? x.getElem_all

theorem OutSignal.length_all : OutSignal.all.length = 26 := rfl

theorem OutSignal.exists_bit {i : Nat} (h : i < 26) : ∃ x : OutSignal, x.bit = i :=
  ⟨OutSignal.all[i]'h, by interval_cases i <;> rfl⟩

theorem InSignal.exists_bit {i : Nat} (h : i < 12) : ∃ n : InSignal, n.bit = i :=
  ⟨InSignal.all[i]'h, by interval_cases i <;> rfl⟩

theorem InSignal.getElem_all (n : InSignal) : InSignal.all[n.bit]? = some n := by
  cases n <;> rfl

theorem InSignal.bit_lt (n : InSignal) : n.bit < 12 := by
  cases n <;> decide

@[simp] theorem OutputSnapshot.get_ofFn (f : OutSignal → Option Bit) (x : OutSignal) :
    (OutputSnapshot.ofFn f).get x = f x := by
  cases x <;> rfl

/-- A snapshot is its 26 values. -/
theorem OutputSnapshot.ext_get {o o' : OutputSnapshot} (h : ∀ x, o.get x = o'.get x) : o = o' := by
  have e (q : OutputSnapshot) : OutputSnapshot.ofFn q.get = q := rfl
  rw [← e o, ← e o', funext h]

theorem OutputSnapshot.allDefined_iff (o : OutputSnapshot) :
    o.allDefined = true ↔ ∀ x, (o.get x).isSome = true := by
  simp only [OutputSnapshot.allDefined, List.all_eq_true]
  exact ⟨fun h x => h x x.mem_all, fun h x _ => h x⟩

/-- Bit `x.bit` of the packed snapshot is the value of `x`. -/
theorem OutputSnapshot.getLsbD_pack (o : OutputSnapshot) (x : OutSignal) :
    o.pack.getLsbD x.bit = (o.get x).getD false := by
  unfold OutputSnapshot.pack
  rw [getLsbD_bitsToValue]
  cases x <;> rfl

end Sys2Proof
end

