-- ==== Sys2Proof/Laws/State.lean ====
section
/-! SUPPORT. One lemma per field per named update of State, true by unfolding. -/

namespace Sys2Proof.Machine

/-! ### Line levels -/

@[simp] theorem Lines.set_data_data (P : Lines) (v : Bit) : (P.set .data v).data = v := rfl
@[simp] theorem Lines.set_data_sck (P : Lines) (v : Bit) : (P.set .data v).sck = P.sck := rfl
@[simp] theorem Lines.set_data_rck (P : Lines) (v : Bit) : (P.set .data v).rck = P.rck := rfl
@[simp] theorem Lines.set_data_cal (P : Lines) (v : Bit) : (P.set .data v).cal = P.cal := rfl
@[simp] theorem Lines.set_data_strobeOut (P : Lines) (v : Bit) : (P.set .data v).strobeOut = P.strobeOut := rfl
@[simp] theorem Lines.set_sck_data (P : Lines) (v : Bit) : (P.set .sck v).data = P.data := rfl
@[simp] theorem Lines.set_sck_sck (P : Lines) (v : Bit) : (P.set .sck v).sck = v := rfl
@[simp] theorem Lines.set_sck_rck (P : Lines) (v : Bit) : (P.set .sck v).rck = P.rck := rfl
@[simp] theorem Lines.set_sck_cal (P : Lines) (v : Bit) : (P.set .sck v).cal = P.cal := rfl
@[simp] theorem Lines.set_sck_strobeOut (P : Lines) (v : Bit) : (P.set .sck v).strobeOut = P.strobeOut := rfl
@[simp] theorem Lines.set_rck_data (P : Lines) (v : Bit) : (P.set .rck v).data = P.data := rfl
@[simp] theorem Lines.set_rck_sck (P : Lines) (v : Bit) : (P.set .rck v).sck = P.sck := rfl
@[simp] theorem Lines.set_rck_rck (P : Lines) (v : Bit) : (P.set .rck v).rck = v := rfl
@[simp] theorem Lines.set_rck_cal (P : Lines) (v : Bit) : (P.set .rck v).cal = P.cal := rfl
@[simp] theorem Lines.set_rck_strobeOut (P : Lines) (v : Bit) : (P.set .rck v).strobeOut = P.strobeOut := rfl
@[simp] theorem Lines.set_cal_data (P : Lines) (v : Bit) : (P.set .cal v).data = P.data := rfl
@[simp] theorem Lines.set_cal_sck (P : Lines) (v : Bit) : (P.set .cal v).sck = P.sck := rfl
@[simp] theorem Lines.set_cal_rck (P : Lines) (v : Bit) : (P.set .cal v).rck = P.rck := rfl
@[simp] theorem Lines.set_cal_cal (P : Lines) (v : Bit) : (P.set .cal v).cal = v := rfl
@[simp] theorem Lines.set_cal_strobeOut (P : Lines) (v : Bit) : (P.set .cal v).strobeOut = P.strobeOut := rfl
@[simp] theorem Lines.set_strobeOut_data (P : Lines) (v : Bit) : (P.set .strobeOut v).data = P.data := rfl
@[simp] theorem Lines.set_strobeOut_sck (P : Lines) (v : Bit) : (P.set .strobeOut v).sck = P.sck := rfl
@[simp] theorem Lines.set_strobeOut_rck (P : Lines) (v : Bit) : (P.set .strobeOut v).rck = P.rck := rfl
@[simp] theorem Lines.set_strobeOut_cal (P : Lines) (v : Bit) : (P.set .strobeOut v).cal = P.cal := rfl
@[simp] theorem Lines.set_strobeOut_strobeOut (P : Lines) (v : Bit) : (P.set .strobeOut v).strobeOut = v := rfl

theorem Lines.get_set (P : Lines) (x y : Line) (v : Bit) :
    (P.set x v).get y = if y = x then v else P.get y := by
  cases x <;> cases y <;> rfl

/-! ### Edges, fault entry, loading -/

@[simp] theorem shiftEdge_P (s : State) : (shiftEdge s).P = s.P := rfl
@[simp] theorem shiftEdge_S (s : State) : (shiftEdge s).S = shiftIn s.S s.P.data := rfl
@[simp] theorem shiftEdge_L (s : State) : (shiftEdge s).L = s.L := rfl
@[simp] theorem shiftEdge_phase (s : State) : (shiftEdge s).phase = s.phase := rfl
@[simp] theorem shiftEdge_seq (s : State) : (shiftEdge s).seq = s.seq := rfl
@[simp] theorem shiftEdge_fault (s : State) : (shiftEdge s).fault = s.fault := rfl
@[simp] theorem shiftEdge_cfg (s : State) : (shiftEdge s).cfg = s.cfg := rfl
@[simp] theorem shiftEdge_booting (s : State) : (shiftEdge s).booting = s.booting := rfl
@[simp] theorem shiftEdge_I (s : State) : (shiftEdge s).I = s.I := rfl
@[simp] theorem shiftEdge_mode (s : State) : (shiftEdge s).mode = s.mode := rfl
@[simp] theorem shiftEdge_commands (s : State) : (shiftEdge s).commands = s.commands := rfl
@[simp] theorem shiftEdge_turn (s : State) : (shiftEdge s).turn = s.turn := rfl
@[simp] theorem shiftEdge_inputs (s : State) : (shiftEdge s).inputs = s.inputs := rfl
@[simp] theorem shiftEdge_reads (s : State) : (shiftEdge s).reads = s.reads := rfl
@[simp] theorem shiftEdge_appAnswers (s : State) : (shiftEdge s).appAnswers = s.appAnswers := rfl
@[simp] theorem shiftEdge_appHistory (s : State) : (shiftEdge s).appHistory = s.appHistory := rfl

@[simp] theorem latchEdge_P (s : State) : (latchEdge s).P = s.P := rfl
@[simp] theorem latchEdge_S (s : State) : (latchEdge s).S = s.S := rfl
@[simp] theorem latchEdge_L (s : State) : (latchEdge s).L = s.S := rfl
@[simp] theorem latchEdge_phase (s : State) : (latchEdge s).phase = s.phase := rfl
@[simp] theorem latchEdge_seq (s : State) : (latchEdge s).seq = s.seq := rfl
@[simp] theorem latchEdge_fault (s : State) : (latchEdge s).fault = s.fault := rfl
@[simp] theorem latchEdge_cfg (s : State) : (latchEdge s).cfg = s.cfg := rfl
@[simp] theorem latchEdge_booting (s : State) : (latchEdge s).booting = s.booting := rfl
@[simp] theorem latchEdge_I (s : State) : (latchEdge s).I = s.I := rfl
@[simp] theorem latchEdge_mode (s : State) : (latchEdge s).mode = s.mode := rfl
@[simp] theorem latchEdge_commands (s : State) : (latchEdge s).commands = s.commands := rfl
@[simp] theorem latchEdge_turn (s : State) : (latchEdge s).turn = s.turn := rfl
@[simp] theorem latchEdge_inputs (s : State) : (latchEdge s).inputs = s.inputs := rfl
@[simp] theorem latchEdge_reads (s : State) : (latchEdge s).reads = s.reads := rfl
@[simp] theorem latchEdge_appAnswers (s : State) : (latchEdge s).appAnswers = s.appAnswers := rfl
@[simp] theorem latchEdge_appHistory (s : State) : (latchEdge s).appHistory = s.appHistory := rfl

@[simp] theorem raiseFault_P (f : Fault) (s : State) : (raiseFault f s).P = s.P := rfl
@[simp] theorem raiseFault_S (f : Fault) (s : State) : (raiseFault f s).S = s.S := rfl
@[simp] theorem raiseFault_L (f : Fault) (s : State) : (raiseFault f s).L = s.L := rfl
@[simp] theorem raiseFault_phase (f : Fault) (s : State) : (raiseFault f s).phase = s.phase := rfl
@[simp] theorem raiseFault_seq (f : Fault) (s : State) : (raiseFault f s).seq = [] := rfl
@[simp] theorem raiseFault_fault (f : Fault) (s : State) : (raiseFault f s).fault = some f := rfl
@[simp] theorem raiseFault_cfg (f : Fault) (s : State) : (raiseFault f s).cfg = s.cfg := rfl
@[simp] theorem raiseFault_booting (f : Fault) (s : State) : (raiseFault f s).booting = s.booting := rfl
@[simp] theorem raiseFault_I (f : Fault) (s : State) : (raiseFault f s).I = s.I := rfl
@[simp] theorem raiseFault_mode (f : Fault) (s : State) : (raiseFault f s).mode = s.mode := rfl
@[simp] theorem raiseFault_commands (f : Fault) (s : State) : (raiseFault f s).commands = s.commands := rfl
@[simp] theorem raiseFault_turn (f : Fault) (s : State) : (raiseFault f s).turn = s.turn := rfl
@[simp] theorem raiseFault_inputs (f : Fault) (s : State) : (raiseFault f s).inputs = s.inputs := rfl
@[simp] theorem raiseFault_reads (f : Fault) (s : State) : (raiseFault f s).reads = s.reads := rfl
@[simp] theorem raiseFault_appAnswers (f : Fault) (s : State) : (raiseFault f s).appAnswers = s.appAnswers := rfl
@[simp] theorem raiseFault_appHistory (f : Fault) (s : State) : (raiseFault f s).appHistory = s.appHistory := rfl

@[simp] theorem loadCommand_P (w : CommandWord) (s : State) : (loadCommand w s).P = s.P := rfl
@[simp] theorem loadCommand_S (w : CommandWord) (s : State) : (loadCommand w s).S = s.S := rfl
@[simp] theorem loadCommand_L (w : CommandWord) (s : State) : (loadCommand w s).L = s.L := rfl
@[simp] theorem loadCommand_phase (w : CommandWord) (s : State) : (loadCommand w s).phase = s.phase := rfl
@[simp] theorem loadCommand_seq (w : CommandWord) (s : State) : (loadCommand w s).seq = [] := rfl
@[simp] theorem loadCommand_fault (w : CommandWord) (s : State) : (loadCommand w s).fault = s.fault := rfl
@[simp] theorem loadCommand_cfg (w : CommandWord) (s : State) : (loadCommand w s).cfg = s.cfg := rfl
@[simp] theorem loadCommand_booting (w : CommandWord) (s : State) : (loadCommand w s).booting = false := rfl
@[simp] theorem loadCommand_I (w : CommandWord) (s : State) : (loadCommand w s).I = s.I := rfl
@[simp] theorem loadCommand_mode (w : CommandWord) (s : State) : (loadCommand w s).mode = .command := rfl
@[simp] theorem loadCommand_commands (w : CommandWord) (s : State) : (loadCommand w s).commands = w :: s.commands := rfl
@[simp] theorem loadCommand_turn (w : CommandWord) (s : State) : (loadCommand w s).turn = s.turn := rfl
@[simp] theorem loadCommand_inputs (w : CommandWord) (s : State) : (loadCommand w s).inputs = s.inputs := rfl
@[simp] theorem loadCommand_reads (w : CommandWord) (s : State) : (loadCommand w s).reads = s.reads := rfl
@[simp] theorem loadCommand_appAnswers (w : CommandWord) (s : State) : (loadCommand w s).appAnswers = s.appAnswers := rfl
@[simp] theorem loadCommand_appHistory (w : CommandWord) (s : State) : (loadCommand w s).appHistory = s.appHistory := rfl

@[simp] theorem withSeq_P (q : List MicroOp) (s : State) : (withSeq q s).P = s.P := rfl
@[simp] theorem withSeq_S (q : List MicroOp) (s : State) : (withSeq q s).S = s.S := rfl
@[simp] theorem withSeq_L (q : List MicroOp) (s : State) : (withSeq q s).L = s.L := rfl
@[simp] theorem withSeq_phase (q : List MicroOp) (s : State) : (withSeq q s).phase = s.phase := rfl
@[simp] theorem withSeq_seq (q : List MicroOp) (s : State) : (withSeq q s).seq = q := rfl
@[simp] theorem withSeq_fault (q : List MicroOp) (s : State) : (withSeq q s).fault = s.fault := rfl
@[simp] theorem withSeq_cfg (q : List MicroOp) (s : State) : (withSeq q s).cfg = s.cfg := rfl
@[simp] theorem withSeq_booting (q : List MicroOp) (s : State) : (withSeq q s).booting = s.booting := rfl
@[simp] theorem withSeq_I (q : List MicroOp) (s : State) : (withSeq q s).I = s.I := rfl
@[simp] theorem withSeq_mode (q : List MicroOp) (s : State) : (withSeq q s).mode = s.mode := rfl
@[simp] theorem withSeq_commands (q : List MicroOp) (s : State) : (withSeq q s).commands = s.commands := rfl
@[simp] theorem withSeq_turn (q : List MicroOp) (s : State) : (withSeq q s).turn = s.turn := rfl
@[simp] theorem withSeq_inputs (q : List MicroOp) (s : State) : (withSeq q s).inputs = s.inputs := rfl
@[simp] theorem withSeq_reads (q : List MicroOp) (s : State) : (withSeq q s).reads = s.reads := rfl
@[simp] theorem withSeq_appAnswers (q : List MicroOp) (s : State) : (withSeq q s).appAnswers = s.appAnswers := rfl
@[simp] theorem withSeq_appHistory (q : List MicroOp) (s : State) : (withSeq q s).appHistory = s.appHistory := rfl

@[simp] theorem load_P (b : Bool) (ms : List MicroOp) (s : State) : (load b ms s).P = s.P := rfl
@[simp] theorem load_S (b : Bool) (ms : List MicroOp) (s : State) : (load b ms s).S = s.S := rfl
@[simp] theorem load_L (b : Bool) (ms : List MicroOp) (s : State) : (load b ms s).L = s.L := rfl
@[simp] theorem load_phase (b : Bool) (ms : List MicroOp) (s : State) : (load b ms s).phase = s.phase := rfl
@[simp] theorem load_seq (b : Bool) (ms : List MicroOp) (s : State) : (load b ms s).seq = ms := rfl
@[simp] theorem load_fault (b : Bool) (ms : List MicroOp) (s : State) : (load b ms s).fault = s.fault := rfl
@[simp] theorem load_cfg (b : Bool) (ms : List MicroOp) (s : State) : (load b ms s).cfg = s.cfg := rfl
@[simp] theorem load_booting (b : Bool) (ms : List MicroOp) (s : State) : (load b ms s).booting = b := rfl
@[simp] theorem load_I (b : Bool) (ms : List MicroOp) (s : State) : (load b ms s).I = s.I := rfl
@[simp] theorem load_mode (b : Bool) (ms : List MicroOp) (s : State) : (load b ms s).mode = s.mode := rfl
@[simp] theorem load_commands (b : Bool) (ms : List MicroOp) (s : State) : (load b ms s).commands = s.commands := rfl
@[simp] theorem load_turn (b : Bool) (ms : List MicroOp) (s : State) : (load b ms s).turn = s.turn := rfl
@[simp] theorem load_inputs (b : Bool) (ms : List MicroOp) (s : State) : (load b ms s).inputs = s.inputs := rfl
@[simp] theorem load_reads (b : Bool) (ms : List MicroOp) (s : State) : (load b ms s).reads = s.reads := rfl
@[simp] theorem load_appAnswers (b : Bool) (ms : List MicroOp) (s : State) : (load b ms s).appAnswers = s.appAnswers := rfl
@[simp] theorem load_appHistory (b : Bool) (ms : List MicroOp) (s : State) : (load b ms s).appHistory = s.appHistory := rfl

/-! ### Pin reads and the oracle -/

@[simp] theorem pinRead_fst (n : InSignal) (s : State) : (pinRead n s).1 = (levelsAt s 0).getLsbD n.bit := rfl
@[simp] theorem pinRead_snd (n : InSignal) (s : State) :
    (pinRead n s).2 = { s with inputs := s.inputs.tail, reads := s.reads + 1 } := rfl

@[simp] theorem consult_snd (s : State) :
    (consult s).2 = { s with appAnswers := s.appAnswers.tail, appHistory := Config.appNext s.appHistory s.I } := by
  unfold consult
  split <;> rfl

end Sys2Proof.Machine
end

