-- ==== Sys2Proof/Laws/Ops.lean ====
section
/-! SUPPORT. What each shared operation can do: pin writes and reads, sequences of them, and running an operation
from its first pin access on. -/

namespace Sys2Proof.Machine

/-! ### Pin accesses -/

@[simp] theorem pinWrite_P (x : Line) (v : Bit) (s : State) : (pinWrite x v s).P = s.P.set x v := by
  cases x <;> simp only [pinWrite] <;> try rfl
  all_goals split <;> rfl

theorem pinWrite_S (x : Line) (v : Bit) (s : State) :
    (pinWrite x v s).S = if x = .sck ∧ s.P.sck = false ∧ v = true then shiftIn s.S s.P.data else s.S := by
  cases x <;> simp [pinWrite, Lines.get] <;> split <;> simp_all

theorem pinWrite_L (x : Line) (v : Bit) (s : State) :
    (pinWrite x v s).L = if x = .rck ∧ s.P.rck = false ∧ v = true then s.S else s.L := by
  cases x <;> simp [pinWrite, Lines.get] <;> split <;> simp_all

@[simp] theorem pinWrite_I (x : Line) (v : Bit) (s : State) : (pinWrite x v s).I = s.I := by
  cases x <;> simp only [pinWrite] <;> try rfl
  all_goals split <;> rfl
@[simp] theorem pinWrite_inputs (x : Line) (v : Bit) (s : State) : (pinWrite x v s).inputs = s.inputs := by
  cases x <;> simp only [pinWrite] <;> try rfl
  all_goals split <;> rfl
@[simp] theorem pinWrite_reads (x : Line) (v : Bit) (s : State) : (pinWrite x v s).reads = s.reads := by
  cases x <;> simp only [pinWrite] <;> try rfl
  all_goals split <;> rfl

/-- A pin access touches lines, stages, latches, the snapshot in flight and the environment; nothing else. -/
theorem perform_frame (m : MicroOp) (s : State) :
    perform m s = { s with
      P := (perform m s).P, S := (perform m s).S, L := (perform m s).L, I := (perform m s).I
      inputs := (perform m s).inputs, reads := (perform m s).reads } := by
  rcases m with ⟨x, v⟩ | n
  · cases x <;> simp only [perform, pinWrite] <;> try rfl
    all_goals split <;> rfl
  · rfl

@[simp] theorem perform_phase (m : MicroOp) (s : State) : (perform m s).phase = s.phase := by
  rw [perform_frame]
@[simp] theorem perform_seq (m : MicroOp) (s : State) : (perform m s).seq = s.seq := by
  rw [perform_frame]
@[simp] theorem perform_fault (m : MicroOp) (s : State) : (perform m s).fault = s.fault := by
  rw [perform_frame]
@[simp] theorem perform_cfg (m : MicroOp) (s : State) : (perform m s).cfg = s.cfg := by
  rw [perform_frame]
@[simp] theorem perform_booting (m : MicroOp) (s : State) : (perform m s).booting = s.booting := by
  rw [perform_frame]
@[simp] theorem perform_mode (m : MicroOp) (s : State) : (perform m s).mode = s.mode := by
  rw [perform_frame]
@[simp] theorem perform_commands (m : MicroOp) (s : State) : (perform m s).commands = s.commands := by
  rw [perform_frame]
@[simp] theorem perform_turn (m : MicroOp) (s : State) : (perform m s).turn = s.turn := by
  rw [perform_frame]
@[simp] theorem perform_appAnswers (m : MicroOp) (s : State) : (perform m s).appAnswers = s.appAnswers := by
  rw [perform_frame]
@[simp] theorem perform_appHistory (m : MicroOp) (s : State) : (perform m s).appHistory = s.appHistory := by
  rw [perform_frame]

/-- What a pin access does depends on nothing the sequencer holds. -/
theorem perform_withSeq (m : MicroOp) (s : State) (q : List MicroOp) :
    perform m (withSeq q s) = withSeq q (perform m s) := by
  rcases m with ⟨x, v⟩ | n
  · cases x <;> simp only [perform, pinWrite] <;> try rfl
    · cases h : (!s.P.get .sck && v) <;> simp only [withSeq, h] <;> rfl
    · cases h : (!s.P.get .rck && v) <;> simp only [withSeq, h] <;> rfl
  · rfl

theorem perform_load (m : MicroOp) (s : State) (b : Bool) (q : List MicroOp) :
    perform m (load b q s) = load b q (perform m s) := by
  rcases m with ⟨x, v⟩ | n
  · cases x <;> simp only [perform, pinWrite] <;> try rfl
    · cases h : (!s.P.get .sck && v) <;> simp only [load, h] <;> rfl
    · cases h : (!s.P.get .rck && v) <;> simp only [load, h] <;> rfl
  · rfl

@[simp] theorem withSeq_withSeq (q r : List MicroOp) (s : State) : withSeq q (withSeq r s) = withSeq q s := rfl
@[simp] theorem withSeq_seq_self (s : State) : withSeq s.seq s = s := rfl
@[simp] theorem withSeq_load (b : Bool) (q r : List MicroOp) (s : State) :
    withSeq q (load b r s) = load b q s := rfl

theorem getLsbD_setBit {n : Nat} (v : BitVec n) (i j : Nat) (b : Bit) (hj : j < n) :
    (setBit v i b).getLsbD j = if j = i then b else v.getLsbD j := by
  unfold setBit
  by_cases h : j = i
  · subst h; cases b <;> simp [hj]
  · rcases Nat.lt_or_ge j i with h1 | h1
    · cases b <;> simp [hj, h, h1]
    · cases b <;> simp [hj, h, show ¬ j < i by omega, show j - i ≠ 0 by omega]

/-! ### Sequences of pin accesses -/

@[simp] theorem performAll_nil (s : State) : performAll [] s = s := rfl

@[simp] theorem performAll_cons (m : MicroOp) (ms : List MicroOp) (s : State) :
    performAll (m :: ms) s = performAll ms (perform m s) := rfl

theorem performAll_append (ms ms' : List MicroOp) (s : State) :
    performAll (ms ++ ms') s = performAll ms' (performAll ms s) := by
  simp [performAll]

theorem performAll_withSeq (ms : List MicroOp) (s : State) (q : List MicroOp) :
    performAll ms (withSeq q s) = withSeq q (performAll ms s) := by
  induction ms generalizing s with
  | nil => rfl
  | cons m ms ih => rw [performAll_cons, perform_withSeq, ih, performAll_cons]

theorem performAll_load (ms : List MicroOp) (s : State) (b : Bool) (q : List MicroOp) :
    performAll ms (load b q s) = load b q (performAll ms s) := by
  induction ms generalizing s with
  | nil => rfl
  | cons m ms ih => rw [performAll_cons, perform_load, ih, performAll_cons]

/-- Whatever every pin access keeps, a sequence of them keeps. -/
theorem performAll_keeps {α : Type} (f : State → α) (h : ∀ m s, f (perform m s) = f s) (ms : List MicroOp)
    (s : State) : f (performAll ms s) = f s := by
  induction ms generalizing s with
  | nil => rfl
  | cons m ms ih => rw [performAll_cons, ih, h]

@[simp] theorem performAll_phase (ms : List MicroOp) (s : State) : (performAll ms s).phase = s.phase :=
  performAll_keeps _ perform_phase ms s
@[simp] theorem performAll_seq (ms : List MicroOp) (s : State) : (performAll ms s).seq = s.seq :=
  performAll_keeps _ perform_seq ms s
@[simp] theorem performAll_fault (ms : List MicroOp) (s : State) : (performAll ms s).fault = s.fault :=
  performAll_keeps _ perform_fault ms s
@[simp] theorem performAll_cfg (ms : List MicroOp) (s : State) : (performAll ms s).cfg = s.cfg :=
  performAll_keeps _ perform_cfg ms s
@[simp] theorem performAll_booting (ms : List MicroOp) (s : State) : (performAll ms s).booting = s.booting :=
  performAll_keeps _ perform_booting ms s
@[simp] theorem performAll_mode (ms : List MicroOp) (s : State) : (performAll ms s).mode = s.mode :=
  performAll_keeps _ perform_mode ms s
@[simp] theorem performAll_commands (ms : List MicroOp) (s : State) : (performAll ms s).commands = s.commands :=
  performAll_keeps _ perform_commands ms s
@[simp] theorem performAll_turn (ms : List MicroOp) (s : State) : (performAll ms s).turn = s.turn :=
  performAll_keeps _ perform_turn ms s

/-! ### Steps within an operation -/

theorem stopped_congr {s t : State} (hf : t.fault = s.fault) (hc : t.cfg = s.cfg) : t.stopped = s.stopped := by
  simp [State.stopped, hf, hc]

theorem advance_cons {s : State} {m : MicroOp} {rest : List MicroOp} (h : s.seq = m :: rest) :
    advance s = settle (withSeq rest (perform m s)) := by
  simp only [advance, h]

/-- With accesses left over, settling does nothing. -/
theorem settle_cons {s : State} (h : s.seq ≠ []) : settle s = s := by
  unfold settle
  split <;> simp_all

@[simp] theorem settle_P (s : State) : (settle s).P = s.P := by unfold settle; split <;> rfl
@[simp] theorem settle_S (s : State) : (settle s).S = s.S := by unfold settle; split <;> rfl
@[simp] theorem settle_L (s : State) : (settle s).L = s.L := by unfold settle; split <;> rfl
@[simp] theorem settle_seq (s : State) : (settle s).seq = s.seq := by unfold settle; split <;> rfl
@[simp] theorem settle_fault (s : State) : (settle s).fault = s.fault := by unfold settle; split <;> rfl
@[simp] theorem settle_cfg (s : State) : (settle s).cfg = s.cfg := by unfold settle; split <;> rfl
@[simp] theorem settle_commands (s : State) : (settle s).commands = s.commands := by unfold settle; split <;> rfl
@[simp] theorem settle_mode (s : State) : (settle s).mode = s.mode := by unfold settle; split <;> rfl

theorem step_of_live {s : State} (h : Live s) :
    step s = match s.seq with | [] => takeOperation s | _ :: _ => .next (advance s) := by
  have h' : s.stopped = none := h
  cases hs : s.seq <;> simp only [step, h', hs]

/-- A step within an operation is `advance`. -/
theorem step_cons {s : State} {m : MicroOp} {rest : List MicroOp} (h : Live s) (hs : s.seq = m :: rest) :
    step s = .next (advance s) := by
  rw [step_of_live h, hs]

/-- A step between operations takes the next one. -/
theorem step_idle {s : State} (h : Live s) (hs : s.seq = []) : step s = takeOperation s := by
  rw [step_of_live h, hs]

theorem run_zero (s : State) : run 0 s = .next s := rfl

theorem run_succ (n : Nat) (s : State) :
    run (n + 1) s = match step s with | .next t => run n t | .fault f => .fault f | .refused r => .refused r := by
  cases h : step s with
  | next t => simp only [run, Host.Core.run]; rw [show Sys2Proof.core.step s = _ from h]
  | fault f => simp only [run, Host.Core.run]; rw [show Sys2Proof.core.step s = _ from h]; rfl
  | refused r => simp only [run, Host.Core.run]; rw [show Sys2Proof.core.step s = _ from h]; rfl

theorem run_succ_next {s t : State} (n : Nat) (h : step s = .next t) : run (n + 1) s = run n t := by
  rw [run_succ, h]

/-- Runs compose. -/
theorem run_add {s t : State} (n k : Nat) (h : run n s = .next t) : run (n + k) s = run k t := by
  induction n generalizing s with
  | zero => rw [run_zero] at h; cases h; rw [Nat.zero_add]
  | succ n ih =>
    rw [Nat.succ_add, run_succ]
    rw [run_succ] at h
    cases hs : step s with
    | next u => rw [hs] at h; exact ih h
    | fault f => rw [hs] at h; cases h
    | refused r => rw [hs] at h; cases h

/-- Running some but not all of the pending accesses. -/
theorem run_some {s : State} (ms rest : List MicroOp) (h : Live s) (hs : s.seq = ms ++ rest) (hr : rest ≠ []) :
    run ms.length s = .next (withSeq rest (performAll ms s)) := by
  induction ms generalizing s with
  | nil =>
    rw [List.nil_append] at hs
    rw [List.length_nil, run_zero, performAll_nil, ← hs, withSeq_seq_self]
  | cons m ms ih =>
    rw [List.length_cons, run_succ_next _ (step_cons h hs), advance_cons hs, settle_cons (by simp [hr]), ih]
    · rw [performAll_cons, performAll_withSeq, withSeq_withSeq]
    · exact (stopped_congr (by simp) (by simp)).trans h
    · rfl

/-- Running all of the pending accesses ends the operation. -/
theorem run_all {s : State} (ms : List MicroOp) (h : Live s) (hs : s.seq = ms) (hn : ms ≠ []) :
    run ms.length s = .next (settle (withSeq [] (performAll ms s))) := by
  obtain ⟨ms', m, rfl⟩ : ∃ ms' m, ms = ms' ++ [m] := ⟨_, _, (List.dropLast_concat_getLast hn).symm⟩
  have hl : Live (withSeq [m] (performAll ms' s)) := (stopped_congr (by simp) (by simp)).trans h
  rw [List.length_append, run_add _ _ (run_some ms' [m] h hs (by simp)), List.length_singleton,
    run_succ_next 0 (step_cons hl rfl), run_zero, advance_cons rfl, performAll_append, perform_withSeq]
  rfl

/-- What beginning an operation answers: its first access performed, the rest pending. -/
theorem start_next (b : Bool) (ms : List MicroOp) (s : State) : start b ms s = .next (advance (load b ms s)) := rfl

/-- From the first access of an operation on, the run is that of the loaded sequencer. -/
theorem run_started {s : State} (b : Bool) (ms : List MicroOp) (h : Live s) (hn : ms ≠ []) (n : Nat) :
    run n (advance (load b ms s)) = run (n + 1) (load b ms s) := by
  obtain ⟨m, rest, rfl⟩ := List.exists_cons_of_ne_nil hn
  have hl : Live (load b (m :: rest) s) := h
  exact (run_succ_next n (step_cons hl rfl)).symm

/-- An operation begun runs to its end in as many steps as it has accesses, the first being the beginning. -/
theorem start_complete {s : State} (b : Bool) (ms : List MicroOp) (h : Live s) (hn : ms ≠ []) :
    run (ms.length - 1) (advance (load b ms s)) = .next (settle (load b [] (performAll ms s))) := by
  have hl : Live (load b ms s) := h
  have hp : 0 < ms.length := List.length_pos_iff.mpr hn
  rw [run_started b ms h hn, Nat.sub_add_cancel hp, run_all ms hl rfl hn, performAll_load, withSeq_load]

/-- An operation begun, part of the way. -/
theorem start_partial {s : State} (b : Bool) (ms rest : List MicroOp) (h : Live s) (hn : ms ≠ []) (hr : rest ≠ []) :
    run (ms.length - 1) (advance (load b (ms ++ rest) s)) = .next (load b rest (performAll ms s)) := by
  have hl : Live (load b (ms ++ rest) s) := h
  have hp : 0 < ms.length := List.length_pos_iff.mpr hn
  rw [run_started b (ms ++ rest) h (by simp [hn]), Nat.sub_add_cancel hp, run_some ms rest hl rfl hr,
    performAll_load, withSeq_load]

/-- Every state on the way through an operation: after `n + 1` accesses the rest is pending. -/
theorem start_observed {s : State} (b : Bool) (ms : List MicroOp) (h : Live s) (n : Nat) (hn : n < ms.length) :
    run n (advance (load b ms s)) =
      .next (settle (load b (ms.drop (n + 1)) (performAll (ms.take (n + 1)) s))) := by
  have hne : ms ≠ [] := List.ne_nil_of_length_pos (by omega)
  by_cases hl : n + 1 = ms.length
  · have e : n = ms.length - 1 := by omega
    rw [hl, List.drop_length, List.take_length, e, start_complete b ms h hne]
  · have hd : ms.drop (n + 1) ≠ [] := by simp; omega
    have ht : (ms.take (n + 1)).length = n + 1 := by simp; omega
    have := start_partial b (ms.take (n + 1)) (ms.drop (n + 1)) h
      (List.ne_nil_of_length_pos (by omega)) hd
    rw [List.take_append_drop, ht] at this
    rw [settle_cons (by simpa using hd)]
    exact this

/-- On a machine that can begin an operation, `whenIdle` is its continuation. -/
theorem whenIdle_ready {s : State} (h : Live s) (hq : s.seq = [])
    (k : State → Host.Outcome State Fault Refusal) : whenIdle s k = k s := by
  have h' : s.stopped = none := h
  simp only [whenIdle, h', hq]

end Sys2Proof.Machine
end

