-- ==== Sys2Proof/Laws/PerInstr.lean ====
section
/-! SUPPORT. The family FixedBits: a well-formed operation's word carries its table row's fixed bits (R88). -/

namespace Sys2Proof.Laws.FixedBits

/-- The mask of the operation's row in the opcode map (R88). -/
def mask : Instr → CommandWord
  | .sample => 0xFFFFFFFF#32
  | .clear => 0xFFFFFFFF#32
  | .shiftOut _ => 0xFF000000#32
  | .compose _ => 0xFC000000#32

/-- The match value of the operation's row in the opcode map (R88). -/
def value : Instr → CommandWord
  | .sample => 0x10000000#32
  | .clear => 0x20000000#32
  | .shiftOut _ => 0x30000000#32
  | .compose _ => 0x40000000#32

/-- The word of a well-formed operation agrees with its row on the row's mask. -/
def Statement (i : Instr) : Prop := i.WellFormed → encode i &&& mask i = value i

theorem sample : Statement .sample := fun _ => by decide

theorem clear : Statement .clear := fun _ => by decide

theorem shiftOut (bits : List Bit) : Statement (.shiftOut bits) := by
  intro _
  apply BitVec.eq_of_getLsbD_eq
  intro i hi
  simp only [encode, mask, value, BitVec.getLsbD_and, BitVec.getLsbD_or, BitVec.getLsbD_setWidth]
  interval_cases i <;> simp

theorem compose (o : OutputSnapshot) : Statement (.compose o) := by
  intro _
  apply BitVec.eq_of_getLsbD_eq
  intro i hi
  simp only [encode, mask, value, BitVec.getLsbD_and, BitVec.getLsbD_or, BitVec.getLsbD_setWidth]
  interval_cases i <;> simp

end Sys2Proof.Laws.FixedBits
end

