-- ==== Sys2Proof/Laws/Step.lean ====
section
/-! SUPPORT. What an operation and a step can do, said once: every invariant and every frame is derived from
`exec_cases` and `step_cases`. -/

namespace Sys2Proof.Machine

/-! ### The operands and expansions of the operations -/

/-- The check of COMPOSE passes exactly on the defined snapshots (R157). -/
theorem firstUndefined_eq_none (o : OutputSnapshot) : firstUndefined o = none ↔ o.allDefined = true := by
  rw [OutputSnapshot.allDefined_iff, firstUndefined, List.find?_eq_none]
  constructor
  · intro h x
    have := h x x.mem_all
    cases hx : o.get x <;> simp_all
  · intro h x _
    have := h x
    cases hx : o.get x <;> simp_all

/-- What the check of COMPOSE reports is undefined, and every signal before it is defined (R192, R197). -/
theorem firstUndefined_eq_some (o : OutputSnapshot) (x : OutSignal) (hx : o.get x = none)
    (hy : ∀ y : OutSignal, y.bit < x.bit → o.get y ≠ none) : firstUndefined o = some x := by
  unfold firstUndefined
  rw [List.find?_eq_some_iff_getElem]
  refine ⟨by simp [hx], x.bit, x.bit_lt, ?_, ?_⟩
  · exact (List.getElem?_eq_some_iff.mp x.getElem_all).2
  · intro j hj
    have hj26 : j < 26 := by have := x.bit_lt; omega
    obtain ⟨y, rfl⟩ := OutSignal.exists_bit hj26
    rw [(List.getElem?_eq_some_iff.mp y.getElem_all).2]
    have := hy y hj
    cases h : o.get y <;> simp_all

theorem length_cells (bits : List Bit) : (bits.flatMap shiftBit).length = 3 * bits.length := by
  induction bits with
  | nil => rfl
  | cons b bits ih =>
    rw [List.flatMap_cons, List.length_append, ih, List.length_cons]
    simp only [shiftBit, List.length_cons, List.length_nil]
    omega

theorem shiftOutTrace_ne_nil (bits : List Bit) : shiftOutTrace bits ≠ [] := by
  simp [shiftOutTrace, latchPulse]

theorem clearTrace_ne_nil : clearTrace ≠ [] := by
  simp [clearTrace, directWrite]

theorem composeTrace_ne_nil (v : Frame) (c d : Bit) : composeTrace v c d ≠ [] := by
  simp [composeTrace, directWrite]

theorem sampleTrace_ne_nil : sampleTrace ≠ [] := by
  simp [sampleTrace, InSignal.all]

/-- R130's pin trace is the expansion of the frame's bits. -/
theorem frameTrace_eq (v : Frame) : frameTrace v = shiftOutTrace (valueToBits v) := by
  simp only [frameTrace, shiftOutTrace, valueToBits, latchPulse, List.flatMap_map]
  rfl

@[simp] theorem writesTo_nil (x : Line) : writesTo x [] = 0 := rfl

@[simp] theorem writesTo_append (x : Line) (ms ms' : List MicroOp) :
    writesTo x (ms ++ ms') = writesTo x ms + writesTo x ms' := List.countP_append

/-! ### Beginning an operation -/

/-- An operation that loads the expansion `ms` performs it access by access. -/
theorem performsTrace_of_start {i : Instr} {s : State} {b : Bool} {ms : List MicroOp} (hl : Live s)
    (h : exec i s = start b ms s) : PerformsTrace i ms s := by
  refine ⟨_, h, fun n hn => ⟨_, start_observed b ms hl n hn, ?_⟩⟩
  refine ⟨settle_P _, settle_S _, settle_L _, ?_, ?_, settle_seq _⟩ <;> unfold settle <;> split <;> rfl

/-- `ms` is the expansion of an operation begun at `s`, and `b` says whether it is the boot CLEAR. -/
def Expansion (s : State) (b : Bool) (ms : List MicroOp) : Prop :=
  (b = false ∧ ms = sampleTrace) ∨
  (b = (s.phase == .reset) ∧ ms = clearTrace) ∨
  (b = false ∧ ∃ bits, bits.length = 24 ∧ ms = shiftOutTrace bits) ∨
  (b = false ∧ ∃ v c d, ms = composeTrace v c d)

theorem Expansion.ne_nil {s : State} {b : Bool} {ms : List MicroOp} (h : Expansion s b ms) : ms ≠ [] := by
  rcases h with ⟨_, rfl⟩ | ⟨_, rfl⟩ | ⟨_, bits, _, rfl⟩ | ⟨_, v, c, d, rfl⟩
  · exact sampleTrace_ne_nil
  · exact clearTrace_ne_nil
  · exact shiftOutTrace_ne_nil bits
  · exact composeTrace_ne_nil v c d

theorem Expansion.isTrace {s : State} {b : Bool} {ms : List MicroOp} (h : Expansion s b ms) : IsTrace ms :=
  h.imp And.right (Or.imp And.right (Or.imp And.right And.right))

/-- An operation that can begin either raises its fault or performs the first access of its expansion. -/
theorem exec_cases {i : Instr} {s t : State} (hl : Live s) (hq : s.seq = []) (h : exec i s = .next t) :
    (∃ f, t = raiseFault f s) ∨ ∃ b ms, Expansion s b ms ∧ t = advance (load b ms s) := by
  cases i with
  | sample =>
    simp only [exec, execSample, whenIdle_ready hl hq, start_next, Host.Outcome.next.injEq] at h
    exact .inr ⟨_, _, .inl ⟨rfl, rfl⟩, h.symm⟩
  | clear =>
    simp only [exec, execClear, whenIdle_ready hl hq, start_next, Host.Outcome.next.injEq] at h
    exact .inr ⟨_, _, .inr (.inl ⟨rfl, rfl⟩), h.symm⟩
  | shiftOut bits =>
    simp only [exec, execShiftOut, whenIdle_ready hl hq, start_next] at h
    split at h
    · rename_i hb
      cases h
      exact .inr ⟨_, _, .inr (.inr (.inl ⟨rfl, bits, hb, rfl⟩)), rfl⟩
    · cases h
      exact .inl ⟨_, rfl⟩
  | compose o =>
    simp only [exec, execCompose, whenIdle_ready hl hq, start_next] at h
    split at h
    · cases h
      exact .inl ⟨_, rfl⟩
    · cases h
      exact .inr ⟨_, _, .inr (.inr (.inr ⟨rfl, _, _, _, rfl⟩)), rfl⟩

/-- An operation that can begin always answers a next state. -/
theorem exec_ready (i : Instr) {s : State} (hl : Live s) (hq : s.seq = []) : ∃ t, exec i s = .next t := by
  cases i with
  | sample => exact ⟨_, whenIdle_ready hl hq _⟩
  | clear => exact ⟨_, whenIdle_ready hl hq _⟩
  | shiftOut bits =>
    simp only [exec, execShiftOut, whenIdle_ready hl hq, start_next]
    split <;> exact ⟨_, rfl⟩
  | compose o =>
    simp only [exec, execCompose, whenIdle_ready hl hq, start_next]
    split <;> exact ⟨_, rfl⟩

/-! ### Steps -/

/-- `s'` is `s` but for what taking an operation may change: the command stream, the turn, the oracle's fields. -/
structure SameBlock (s s' : State) : Prop where
  P : s'.P = s.P
  S : s'.S = s.S
  L : s'.L = s.L
  phase : s'.phase = s.phase
  seq : s'.seq = s.seq
  fault : s'.fault = s.fault
  cfg : s'.cfg = s.cfg
  booting : s'.booting = s.booting
  I : s'.I = s.I
  mode : s'.mode = s.mode
  inputs : s'.inputs = s.inputs
  reads : s'.reads = s.reads
  commands : s'.commands = s.commands ∨ ∃ w, s.commands = w :: s'.commands

theorem SameBlock.live {s s' : State} (h : SameBlock s s') (hl : Live s) : Live s' :=
  (stopped_congr h.fault h.cfg).trans hl

/-- Taking the next operation: a fault, or the first access of an expansion. -/
theorem takeOperation_cases {s t : State} (hl : Live s) (hq : s.seq = []) (h : takeOperation s = .next t) :
    ∃ s', SameBlock s s' ∧
      ((∃ f, t = raiseFault f s') ∨ ∃ b ms, Expansion s' b ms ∧ t = advance (load b ms s')) := by
  unfold takeOperation at h
  split at h
  · unfold takeLoop at h
    split at h
    · exact ⟨s, ⟨rfl, rfl, rfl, rfl, rfl, rfl, rfl, rfl, rfl, rfl, rfl, rfl, .inl rfl⟩, exec_cases hl hq h⟩
    · exact ⟨{ s with turn := .compose }, ⟨rfl, rfl, rfl, rfl, rfl, rfl, rfl, rfl, rfl, rfl, rfl, rfl, .inl rfl⟩,
        exec_cases (by exact hl) (by exact hq) h⟩
    · simp only [consult_snd] at h
      exact ⟨{ s with
          appAnswers := s.appAnswers.tail, appHistory := Config.appNext s.appHistory s.I, turn := .sample },
        ⟨rfl, rfl, rfl, rfl, rfl, rfl, rfl, rfl, rfl, rfl, rfl, rfl, .inl rfl⟩,
        exec_cases (by exact hl) (by exact hq) h⟩
  · unfold takeCommand at h
    split at h
    · cases h
    · rename_i w rest hc
      refine ⟨{ s with commands := rest },
        ⟨rfl, rfl, rfl, rfl, rfl, rfl, rfl, rfl, rfl, rfl, rfl, rfl, .inr ⟨w, hc⟩⟩, ?_⟩
      split at h
      · exact exec_cases (by exact hl) (by exact hq) h
      · cases h
        exact .inl ⟨_, rfl⟩

/-- What a step can do. -/
theorem step_cases {s t : State} (h : step s = .next t) :
    Live s ∧
      ((∃ m rest, s.seq = m :: rest ∧ t = settle (withSeq rest (perform m s))) ∨
        (s.seq = [] ∧ ∃ s', SameBlock s s' ∧
          ((∃ f, t = raiseFault f s') ∨ ∃ b ms, Expansion s' b ms ∧ t = advance (load b ms s')))) := by
  have hl : Live s := by
    unfold Live
    unfold step at h
    split at h
    · cases h
    · assumption
  refine ⟨hl, ?_⟩
  cases hq : s.seq with
  | nil =>
    rw [step_idle hl hq] at h
    exact .inr ⟨rfl, takeOperation_cases hl hq h⟩
  | cons m rest =>
    rw [step_cons hl hq] at h
    cases h
    exact .inl ⟨m, rest, rfl, advance_cons hq⟩

/-! ### Live machines -/

theorem Live.fault_eq_none {s : State} (h : Live s) : s.fault = none := by
  unfold Live State.stopped at h
  split at h
  · cases h
  · assumption

theorem Live.valid {s : State} (h : Live s) : Config.Valid s.cfg := by
  unfold Live State.stopped at h
  split at h
  · cases h
  · simpa using h

end Sys2Proof.Machine
end

