-- ==== Sys2Proof/Tests/Slice0.lean ====
section
/-! SUPPORT. Tests, each about one step or one access, with expected values from spec/95_test_vectors.md and the
examples in the rules; and a witness for the hypotheses of every statement that has some. -/

namespace Sys2Proof.Tests

open Sys2Proof.Machine

/-! ### Helpers -/

/-- A block just after power-on, with the draws of 95_test_vectors.md T8. -/
def fresh : State :=
  .resetWith .standard { s := 0xABCDEF#24, l := 0x555555#24, data := true, cal := true, strobe := true }

/-- `fresh` in command mode with a list of words. -/
def withWords (ws : List CommandWord) : State :=
  { fresh with mode := .command, commands := ws }

/-- A snapshot with the listed signals at 1 and all others at 0. -/
def snapshot (xs : List OutSignal) : OutputSnapshot := .ofNames xs

/-- A block after boot, between iterations of the loop. -/
def running : State :=
  { fresh with phase := .running, S := 0x030000#24, L := 0x030000#24 }

/-- 24 bits, the frame 0xA5C33C of S1. -/
def frameBits : List Bit :=
  [true, false, true, false, false, true, false, true, true, true, false, false, false, false, true, true,
   false, false, true, true, true, true, false, false]

/-- A step that answers a next state. -/
def goesOn : Host.Outcome State Fault Refusal → Bool
  | .next _ => true
  | .fault _ => false
  | .refused _ => false

/-! ### Well-formedness: one ill-formed term for each check -/

theorem test_wf_refuses_23_bits : (Instr.shiftOut (frameBits.drop 1)).wf = false := by decide
theorem test_wf_refuses_25_bits : (Instr.shiftOut (true :: frameBits)).wf = false := by decide
theorem test_wf_accepts_24_bits : (Instr.shiftOut frameBits).wf = true := by decide
theorem test_wf_refuses_undefined :
    (Instr.compose { snapshot [] with bcdC := none }).wf = false := by decide
theorem test_wf_refuses_undefined_direct :
    (Instr.compose { snapshot [] with strobeOut := none }).wf = false := by decide
theorem test_wf_accepts_defined : (Instr.compose (snapshot [.segA])).wf = true := by decide

/-! ### The wiring check (T7 rows 6 and 7, R86) -/

/-- SEG_F replaced by a second SEG_A. -/
def doubled : List WiringEntry :=
  (Wiring.enumerated.map fun x => if x = .segF then .segA else x).map .signal

theorem test_wiring_refuses_omitted : Wiring.defect doubled = some .omittedSignal := by decide
theorem test_wiring_refuses_23 : Wiring.defect (Config.standard.wiring.drop 1) = some .count := by decide
theorem test_wiring_refuses_cal :
    Wiring.defect (.signal .cal :: Config.standard.wiring.drop 1) = some .foreignName := by decide
theorem test_wiring_refuses_constant :
    Wiring.defect (.constant false :: Config.standard.wiring.drop 1) = some .foreignName := by decide
theorem test_wiring_accepts_standard : Wiring.defect Config.standard.wiring = none := by decide

/-! ### Decoding (T6, R88), word by word as the spec writes it -/

theorem test_decode_sample : decode 0b00010000000000000000000000000000#32 = .ok .sample := by decide
theorem test_decode_clear : decode 0b00100000000000000000000000000000#32 = .ok .clear := by decide
theorem test_decode_shift_out :
    decode 0b00110000101001011100001100111100#32 = .ok (.shiftOut frameBits) := by decide
theorem test_decode_compose :
    decode 0b01000000000000000000010000100000#32 = .ok (.compose (snapshot [.segA, .segF])) := by decide
theorem test_decode_compose_last_signal :
    decode 0x42000000#32 = .ok (.compose (snapshot [.dmx8])) := by decide
theorem test_decode_compose_direct_signals :
    decode 0x40021000#32 = .ok (.compose (snapshot [.cal, .strobeOut])) := by decide
theorem test_decode_zero_word : decode 0x00000000#32 = .error .reservedOp := by decide
theorem test_decode_op5 : decode 0x50000000#32 = .error .reservedOp := by decide
theorem test_decode_sample_arg : decode 0x10000001#32 = .error .argNotZero := by decide
theorem test_decode_clear_arg : decode 0x20000001#32 = .error .argNotZero := by decide
theorem test_decode_frame_too_wide : decode 0x31000000#32 = .error .frameTooWide := by decide
theorem test_decode_zero_field : decode 0x44000000#32 = .error .zeroField := by decide
theorem test_decode_table_word : decodeTableWord 32 0x20000000 = some .clear := by decide
theorem test_encode_shift_out : encode (.shiftOut frameBits) = 0x30A5C33C#32 := by decide
theorem test_encode_compose : encode (.compose (snapshot [.segA, .segF])) = 0x40000420#32 := by decide

/-! ### Assembly (R91, P3) -/

theorem test_asm_names :
    (Asm.statement ("COMPOSE ".toList ++ [Char.ofNat 123] ++ "SEG_A, SEG_F".toList ++ [Char.ofNat 125])).join.map
      encode = some 0x40000420#32 := by decide
theorem test_asm_frame : Asm.word "SHIFT_OUT 0x030000 ; P2" = some 0x30030000#32 := by decide

/-! ### ASSEMBLE (T3, R155) -/

theorem test_assemble_t3_row1 :
    assemble .standard (snapshot [.segA, .segB, .segC, .dmx1, .cal]) = 0x026008#24 := by decide
theorem test_assemble_t3_row2 :
    assemble .standard (snapshot [.alarm, .bcdB, .lss, .dmx3, .strobeOut]) = 0xA00204#24 := by decide
theorem test_assemble_t3_row3 :
    assemble .standard (snapshot [.bcdA, .bcdC, .lms, .dmx7, .dmx8]) = 0x480881#24 := by decide
theorem test_assemble_other_mask :
    assemble { Config.standard with polarityMask := 0x800FFF#24 } (snapshot [.segA, .segF]) = 0x830FFF#24 := by decide
theorem test_pack : (snapshot [.alarm, .bcdB, .lss, .dmx3, .strobeOut]).pack = 0x0122005#26 := by decide

/-! ### Pin accesses (T1) -/

theorem test_sck_rise_shifts :
    (pinWrite .sck true { fresh with S := 0x000000#24 }).S = 0x000001#24 := by decide
theorem test_sck_rise_loses_top_bit :
    (pinWrite .sck true { fresh with S := 0x800001#24, P := { fresh.P with data := false } }).S = 0x000002#24 := by
  decide
theorem test_sck_same_level_no_edge :
    (pinWrite .sck true { fresh with S := 0x000001#24, P := { fresh.P with sck := true } }).S = 0x000001#24 := by
  decide
theorem test_sck_fall_no_edge :
    (pinWrite .sck false { fresh with S := 0x000001#24, P := { fresh.P with sck := true } }).S = 0x000001#24 := by
  decide
theorem test_rck_rise_latches :
    (pinWrite .rck true { fresh with S := 0x030000#24 }).L = 0x030000#24 := by decide
theorem test_rck_fall_no_edge :
    (pinWrite .rck false { fresh with P := { fresh.P with rck := true } }).L = 0x555555#24 := by decide
theorem test_rd_pin5 :
    (pinRead .lstLsp { fresh with inputs := [0x008#12] }).1 = true := by decide
theorem test_rd_other_pin :
    (pinRead .z { fresh with inputs := [0x008#12] }).1 = false := by decide
theorem test_reg_a : regA 0xA5C33C#24 = 0xA5#8 := by decide
theorem test_reg_c : regC 0xA5C33C#24 = 0x3C#8 := by decide
theorem test_fault_codes :
    [Fault.frameLength 23, .undefinedOutput .bcdC, .wiringTable .count, .illegalCommand 0#32].map Fault.code =
      [1, 2, 3, 4] := by decide

/-! ### One step of each operation -/

theorem test_step_shift_out :
    (match step (withWords [0x30A5C33C#32]) with
      | .next t => (t.P.data, t.seq.length, t.commands.length)
      | _ => (false, 0, 1)) = (true, 73, 0) := by decide
theorem test_step_clear :
    (match step (withWords [0x20000000#32]) with
      | .next t => (t.P.data, t.seq.length, t.booting)
      | _ => (true, 0, false)) = (false, 75, true) := by decide
theorem test_step_compose :
    (match step (withWords [0x40000420#32]) with
      | .next t => (t.P.data, t.seq.length, t.booting)
      | _ => (true, 0, true)) = (false, 151, false) := by decide +kernel
theorem test_step_sample :
    (match step { withWords [0x10000000#32] with inputs := [0x001#12] } with
      | .next t => (t.I, t.seq.length, t.L)
      | _ => (0#12, 0, 0#24)) = (0x001#12, 11, 0x555555#24) := by decide
theorem test_step_illegal_word :
    (match step (withWords [0x50000000#32]) with
      | .next t => (t.fault, t.L)
      | _ => (none, 0#24)) = (some (.illegalCommand 0x50000000#32), 0x555555#24) := by decide
theorem test_exec_undefined_output :
    (match exec (.compose { snapshot [] with bcdC := none, cal := none }) fresh with
      | .next t => t.fault
      | _ => none) = some (.undefinedOutput .bcdC) := by decide
theorem test_reset_runs_loaded_shift_out :
    goesOn (step (State.reset.withFetchWord 32 0x30A5C33C)) = true := by decide
theorem test_reset_runs_loaded_sample :
    goesOn (step (State.reset.withFetchWord 32 0x10000000)) = true := by decide

/-! ### Witnesses for the hypotheses of the statements -/

theorem witness_ready : Ready fresh := by decide
theorem witness_ready_running : Ready running := by decide

theorem witness_DecodeOfEncode : (Instr.shiftOut frameBits).WellFormed ∧ (Instr.compose (snapshot [])).WellFormed := by
  decide
theorem witness_EncodeOfDecode : decode 0x30A5C33C#32 = .ok (.shiftOut frameBits) := by decide
theorem witness_StepRunsDecodedWord :
    Live (withWords [0x20000000#32]) ∧ (withWords [0x20000000#32]).seq = [] ∧
      (withWords [0x20000000#32]).mode = .command ∧ (withWords [0x20000000#32]).commands = 0x20000000#32 :: [] ∧
      decode 0x20000000#32 = .ok .clear := by decide
theorem witness_StepRunsLoadedWord : Live fresh ∧ decode 0x10000000#32 = .ok .sample := by decide
theorem witness_StepPerformsHeadOfSeq_last :
    Live { fresh with seq := [.w .strobeOut false], booting := true } ∧
      ({ fresh with seq := [.w .strobeOut false], booting := true } : State).seq = .w .strobeOut false :: [] := by decide
theorem witness_StepPerformsHeadOfSeq_more :
    Live { fresh with seq := latchPulse } ∧
      ({ fresh with seq := latchPulse } : State).seq = .w .rck true :: [.w .rck false] := by decide
theorem witness_StepIsOnePinAccess_begin : ∃ t, step running = .next t ∧ t.fault = none ∧ running.seq = [] :=
  ⟨_, rfl, by decide, rfl⟩
theorem witness_StepIsOnePinAccess_inside :
    ∃ t, step { running with seq := latchPulse } = .next t ∧ t.fault = none ∧ latchPulse = .w .rck true :: t.seq :=
  ⟨_, rfl, by decide, rfl⟩
theorem witness_LoopTakesOperationsInOrder :
    (Live fresh ∧ fresh.seq = [] ∧ fresh.mode = .loop ∧ fresh.phase = .reset) ∧
    (Live running ∧ running.seq = [] ∧ running.mode = .loop ∧ running.phase = .running ∧ running.turn = .sample) ∧
    (let s : State := { running with turn := .compose }
     Live s ∧ s.seq = [] ∧ s.mode = .loop ∧ s.phase = .running ∧ s.turn = .compose) := by decide
theorem witness_LoopNeverBlocks : Live running ∧ running.mode = .loop := by decide
theorem witness_NoOperationBeginsInsideAnother :
    Live { running with seq := latchPulse } ∧ ({ running with seq := latchPulse } : State).seq ≠ [] := by decide
theorem witness_ForeignPinsAreRefused :
    (13 < 14 ∨ 18 < 13) ∧ (19 < 14 ∨ 18 < 19) ∧ (1 < 2 ∨ 13 < 1) ∧ (14 < 2 ∨ 13 < 14) := by decide
theorem witness_BitCellEffect :
    fresh.P.sck = false ∧ ({ fresh with P := { fresh.P with sck := true } } : State).P.sck = true := by decide
theorem witness_LatchPulseEffect : fresh.P.rck = false := by decide
theorem witness_ShiftOut : Ready fresh ∧ frameBits.length = 24 := by decide
theorem witness_StateInsideShiftOut :
    Ready fresh ∧ 0 = min 24 ((0 + 2) / 3) ∧ 1 = min 24 ((1 + 2) / 3) ∧ 1 = min 24 ((2 + 2) / 3) ∧
      24 = min 24 ((71 + 2) / 3) ∧ 24 = min 24 ((73 + 2) / 3) := by decide
theorem witness_WrongFrameLengthFaults : Live fresh ∧ fresh.seq = [] ∧ (frameBits.drop 1).length ≠ 24 := by decide
theorem witness_Compose :
    Ready running ∧ (snapshot [.segA, .cal]).allDefined = true ∧ (snapshot [.segA, .cal]).cal = some true ∧
      (snapshot [.segA, .cal]).strobeOut = some false ∧ running.cfg.polarityMask = 0x000000#24 ∧
      running.cfg = .standard := by decide
theorem witness_ComposeLeavesNoResidue :
    Ready fresh ∧ Ready running ∧ fresh.cfg = running.cfg ∧ (snapshot [.alarm]).allDefined = true := by decide
theorem witness_UndefinedOutputFaults :
    Live fresh ∧ fresh.seq = [] ∧ ({ snapshot [] with bcdC := none } : OutputSnapshot).get .bcdC = none ∧
      ∀ y ∈ OutSignal.all, y.bit < OutSignal.bit .bcdC →
        ({ snapshot [] with bcdC := none } : OutputSnapshot).get y ≠ none := by decide
theorem witness_Valid : Config.Valid .standard := by decide
theorem witness_AssembleIsBijective :
    Config.Valid .standard ∧ (snapshot [.segB]).allDefined = true ∧ (snapshot [.segB, .cal]).allDefined = true ∧
      assemble .standard (snapshot [.segB]) = assemble .standard (snapshot [.segB, .cal]) := by decide
theorem witness_AssembleIgnoresDirectSignals :
    Config.Valid .standard ∧ ∀ x ∈ OutSignal.all, x ≠ .cal → x ≠ .strobeOut →
      (snapshot [.segB]).get x = (snapshot [.segB, .cal, .strobeOut]).get x := by decide
theorem witness_MalformedWiringHasNoMachine :
    Wiring.defect ({ Config.standard with wiring := doubled } : Config).wiring = some .omittedSignal ∧
      ({ fresh with cfg := { Config.standard with wiring := doubled } } : State).fault = none := by decide
theorem witness_SampleOfSteadyPins :
    Ready { running with inputs := List.replicate 12 0x008#12 ++ [] } ∧
      ({ running with inputs := List.replicate 12 0x008#12 ++ [] } : State).inputs =
        List.replicate 12 0x008#12 ++ [] := by decide
theorem witness_IterateResult :
    Ready running ∧ running.mode = .loop ∧ running.phase = .running ∧ running.turn = .sample := by decide
theorem witness_IterateResult_answers :
    (∀ m : State, m.appAnswers = [snapshot [.segA, .segF]] → (consult m).1.allDefined = true) ∧
    (∀ m : State, m.appAnswers = [{ snapshot [] with bcdC := none }] → (consult m).1.allDefined = false) := by
  constructor <;> intro m h <;> simp only [consult, h] <;> decide
theorem witness_UndefinedAnswerStopsTheLoop :
    let s : State := { running with turn := .compose, appAnswers := [{ snapshot [] with alarm := none }] }
    Ready s ∧ s.mode = .loop ∧ s.phase = .running ∧ s.turn = .compose ∧ (consult s).1.get .alarm = none ∧
      ∀ y ∈ OutSignal.all, y.bit < OutSignal.bit .alarm → (consult s).1.get y ≠ none := by decide
theorem witness_IllegalWordFaults :
    Live (withWords [0x50000000#32]) ∧ (withWords [0x50000000#32]).seq = [] ∧
      (withWords [0x50000000#32]).mode = .command ∧
      (withWords [0x50000000#32]).commands = 0x50000000#32 :: [] ∧ (decode 0x50000000#32).toOption = none := by decide
theorem witness_FaultEntryIsPrecise :
    ∃ t f, step (withWords [0x50000000#32]) = .next t ∧ t.fault = some f :=
  ⟨_, _, rfl, rfl⟩
theorem witness_FaultStopsTheMachine :
    ({ running with fault := some (.frameLength 23) } : State).fault = some (.frameLength 23) := by decide
theorem witness_WellFormedOperationsNeverFault :
    Live running ∧ running.seq = [] ∧ Instr.sample.WellFormed ∧ (Instr.compose (snapshot [])).WellFormed := by decide

theorem fresh_invariant : Invariant fresh :=
  ⟨by decide, fun _ => rfl, by decide, by decide, by decide⟩
theorem running_invariant : Invariant running :=
  ⟨by decide, fun _ => rfl, by decide, by decide, by decide⟩
theorem witness_StepKeepsInvariant : ∃ t, Invariant running ∧ step running = .next t :=
  ⟨_, running_invariant, rfl⟩
theorem witness_InvariantBetweenOperations :
    (Invariant running ∧ running.seq = [] ∧ running.phase = .running) ∧
      Ready running ∧ ∀ i ∈ [Instr.sample, .clear, .shiftOut frameBits, .compose (snapshot [.segA])], i.WellFormed :=
  ⟨⟨running_invariant, rfl, rfl⟩, by decide, by decide⟩
theorem witness_OperationsPerformTheirTraces :
    Ready fresh ∧ (snapshot [.cal]).allDefined = true ∧ (snapshot [.cal]).cal = some true ∧
      (snapshot [.cal]).strobeOut = some false := by decide
theorem witness_LatchesChangeOnlyAtLatchEdge :
    ∃ t, step { fresh with seq := latchPulse } = .next t ∧ t.L ≠ fresh.L :=
  ⟨_, rfl, by decide⟩
theorem witness_StagesChangeOnlyAtShiftEdge :
    ∃ t, step { fresh with seq := [.w .sck true, .w .sck false] } = .next t ∧ t.S ≠ fresh.S :=
  ⟨_, rfl, by decide⟩
theorem witness_PhaseMovesOnceAtEndOfBoot :
    ∃ t, step { fresh with seq := [.w .strobeOut false], booting := true } = .next t ∧ fresh.phase = .reset ∧
      t.phase = .running :=
  ⟨_, rfl, rfl, rfl⟩
theorem witness_ConstantsAreNeverWritten : ∃ t, step (withWords [0x20000000#32]) = .next t :=
  ⟨_, rfl⟩
theorem witness_DataChangesOnlyWhileClockIsLow :
    fresh.P.sck = false ∧ fresh.P.rck = false ∧
      shiftOutTrace [true, false] =
        [.w .data true, .w .sck true, .w .sck false] ++
          .w .data false :: [.w .sck true, .w .sck false, .w .rck true, .w .rck false] := by decide

end Sys2Proof.Tests
end

section
/-! Which pin trace each operation loads when it begins, and that it performs exactly that trace (R15). -/

namespace Sys2Proof.Machine

/-! ### What each operation loads -/

theorem exec_sample_eq_start {s : State} (hl : Live s) (hq : s.seq = []) :
    exec .sample s = start false sampleTrace s :=
  whenIdle_ready hl hq _

theorem exec_clear_eq_start {s : State} (hl : Live s) (hq : s.seq = []) :
    exec .clear s = start (s.phase == .reset) clearTrace s :=
  whenIdle_ready hl hq _

/-- SHIFT_OUT of a sequence of the right length passes its check (R130, R138). -/
theorem exec_shiftOut_eq_start {s : State} {bits : List Bit} (hl : Live s) (hq : s.seq = [])
    (hb : bits.length = 24) : exec (.shiftOut bits) s = start false (shiftOutTrace bits) s := by
  simp only [exec, execShiftOut, whenIdle_ready hl hq, if_pos hb]

/-- COMPOSE of a defined snapshot passes its check and loads the trace of the assembled frame (R150, R157). -/
theorem exec_compose_eq_start {s : State} {o : OutputSnapshot} {c d : Bit} (hl : Live s) (hq : s.seq = [])
    (ho : o.allDefined = true) (hc : o.cal = some c) (hd : o.strobeOut = some d) :
    exec (.compose o) s = start false (composeTrace (assemble s.cfg o) c d) s := by
  have hu : firstUndefined o = none := (firstUndefined_eq_none o).mpr ho
  simp only [exec, execCompose, whenIdle_ready hl hq, hu, OutputSnapshot.get, hc, hd, Option.getD_some]

/-! ### The traces written out -/

/-- R134's pin trace, the zero frame and both direct outputs low, is the expansion of CLEAR. -/
theorem clearTrace_eq_frameTrace :
    clearTrace = frameTrace 0x000000#24 ++ [.w .cal false, .w .strobeOut false] := by
  rw [frameTrace_eq, clearTrace, directWrite]

/-- R150's pin trace, the trace of CLEAR, the frame and the direct outputs, is the expansion of COMPOSE. -/
theorem composeTrace_eq_frameTrace (v : Frame) (c d : Bit) :
    composeTrace v c d =
      frameTrace 0x000000#24 ++ [.w .cal false, .w .strobeOut false] ++ frameTrace v ++
        [.w .cal c, .w .strobeOut d] := by
  rw [← clearTrace_eq_frameTrace, frameTrace_eq v, composeTrace, directWrite]

/-- Settles O60: each operation begins by loading its trace (`exec_*_eq_start`), and an operation that loads a trace
performs it access by access (`performsTrace_of_start`). -/
theorem operationsPerformTheirTraces : Obligations.OperationsPerformTheirTraces := by
  rintro s ⟨hl, -, -, hq⟩
  refine ⟨?sample, ?clear, fun v => ?shiftOut, fun o c d ho hc hd => ?compose⟩
  case sample => exact performsTrace_of_start hl (exec_sample_eq_start hl hq)
  case clear =>
    rw [← clearTrace_eq_frameTrace]
    exact performsTrace_of_start hl (exec_clear_eq_start hl hq)
  case shiftOut =>
    rw [frameTrace_eq]
    exact performsTrace_of_start hl (exec_shiftOut_eq_start hl hq (length_valueToBits v))
  case compose =>
    rw [← composeTrace_eq_frameTrace]
    exact performsTrace_of_start hl (exec_compose_eq_start hl hq ho hc hd)

end Sys2Proof.Machine
end

section
/-! What settling, a pin access, an operation's whole trace and a step do to the state (R27, R110 to R115, R130, R134,
R150, R170). -/

namespace Sys2Proof

/-! ### Bits -/

/-- The last bit of a sequence is bit 0 of the number it stands for (R11). -/
theorem getLastD_eq_getLsbD_bitsToValue {n : Nat} {bits : List Bit} (h : bits.length = n) (hn : 0 < n) (a : Bit) :
    bits.getLastD a = (bitsToValue n bits).getLsbD 0 := by
  subst h
  rw [getLsbD_bitsToValue, List.getLastD_eq_getLast?, List.getLast?_eq_getElem?, List.getD]
  simp [hn]

/-- A field of consecutive stages is itself a shift register, fed from the stage below it (R22). -/
theorem extractLsb'_shiftIn {n : Nat} (v : BitVec n) (b : Bit) (start len : Nat) (h : start + len ≤ n) :
    (shiftIn v b).extractLsb' start len =
      shiftIn (v.extractLsb' start len) (if start = 0 then b else v.getLsbD (start - 1)) := by
  apply BitVec.eq_of_getLsbD_eq
  intro i hi
  rw [BitVec.getLsbD_extractLsb', getLsbD_shiftIn, getLsbD_shiftIn, BitVec.getLsbD_extractLsb']
  rcases i with _ | i
  · simp [hi, show start < n by omega]
  · simp [hi, show start + i + 1 < n by omega, show i < len by omega, ← Nat.add_assoc]

end Sys2Proof

namespace Sys2Proof.Machine

/-! ### Settling -/

/-- The phase moves, and the boot CLEAR is over, once the last access has been performed (R27). -/
theorem settle_eq (s : State) :
    settle s = { s with
      phase := if s.seq = [] ∧ s.booting = true then .running else s.phase
      booting := if s.seq = [] then false else s.booting } := by
  obtain ⟨_, _, _, _, seq, _, _, booting⟩ := s
  cases seq <;> cases booting <;> rfl

@[simp] theorem settle_phase (s : State) :
    (settle s).phase = if s.seq = [] ∧ s.booting = true then .running else s.phase := by rw [settle_eq]
@[simp] theorem settle_booting (s : State) :
    (settle s).booting = if s.seq = [] then false else s.booting := by rw [settle_eq]
@[simp] theorem settle_I (s : State) : (settle s).I = s.I := by rw [settle_eq]
@[simp] theorem settle_inputs (s : State) : (settle s).inputs = s.inputs := by rw [settle_eq]
@[simp] theorem settle_reads (s : State) : (settle s).reads = s.reads := by rw [settle_eq]

/-! ### One pin access -/

/-- The latches change only at a rising edge of RCK, and then they take the stages (R112). -/
theorem perform_L_cases (m : MicroOp) (s : State) :
    (perform m s).L = s.L ∨
      (s.P.rck = false ∧ (perform m s).P.rck = true ∧ (perform m s).L = s.S ∧ (perform m s).S = s.S) := by
  cases m with
  | rd n => exact .inl rfl
  | w x v =>
    by_cases h : x = .rck ∧ s.P.rck = false ∧ v = true
    · obtain ⟨rfl, hr, rfl⟩ := h
      exact .inr (by simp [perform, pinWrite_L, pinWrite_S, hr])
    · exact .inl (by rw [perform, pinWrite_L, if_neg h])

/-- The stages change only at a rising edge of SCK, and then they shift DATA in (R111). -/
theorem perform_S_cases (m : MicroOp) (s : State) :
    (perform m s).S = s.S ∨
      (s.P.sck = false ∧ (perform m s).P.sck = true ∧ (perform m s).S = shiftIn s.S s.P.data ∧
        (perform m s).L = s.L) := by
  cases m with
  | rd n => exact .inl rfl
  | w x v =>
    by_cases h : x = .sck ∧ s.P.sck = false ∧ v = true
    · obtain ⟨rfl, hr, rfl⟩ := h
      exact .inr (by simp [perform, pinWrite_L, pinWrite_S, hr])
    · exact .inl (by rw [perform, pinWrite_S, if_neg h])

/-! ### Whole traces -/

/-- A bit cell begun with SCK low shifts its bit in and leaves the clock low (R114). -/
theorem performAll_shiftBit (b : Bit) {s : State} (h : s.P.sck = false) :
    performAll (shiftBit b) s = { s with P := { s.P with data := b }, S := shiftIn s.S b } := by
  obtain ⟨⟨_, sck, _⟩⟩ := s
  cases h
  rfl

/-- Bit cells shift their bits in, the first one first, and leave DATA at the last one (R130). -/
theorem performAll_cells (bits : List Bit) {s : State} (h : s.P.sck = false) :
    performAll (bits.flatMap shiftBit) s =
      { s with P := { s.P with data := bits.getLastD s.P.data }, S := bits.foldl shiftIn s.S } := by
  induction bits generalizing s with
  | nil => rfl
  | cons b bits ih =>
    rw [List.flatMap_cons, performAll_append, performAll_shiftBit b h, ih (by exact h)]
    simp only [List.getLastD_cons, List.foldl_cons]

/-- A latch pulse begun with RCK low copies the stages to the latches (R115). -/
theorem performAll_latchPulse {s : State} (h : s.P.rck = false) :
    performAll latchPulse s = { s with L := s.S } := by
  obtain ⟨⟨_, _, rck⟩⟩ := s
  cases h
  rfl

theorem performAll_directWrite (c d : Bit) (s : State) :
    performAll (directWrite c d) s = { s with P := { s.P with cal := c, strobeOut := d } } := rfl

/-- The trace of SHIFT_OUT, for a sequence of any length (R130). -/
theorem performAll_shiftOutTrace (bits : List Bit) {s : State} (hs : s.P.sck = false) (hr : s.P.rck = false) :
    performAll (shiftOutTrace bits) s =
      { s with
        P := { s.P with data := bits.getLastD s.P.data }
        S := bits.foldl shiftIn s.S
        L := bits.foldl shiftIn s.S } := by
  rw [shiftOutTrace, performAll_append, performAll_cells bits hs, performAll_latchPulse (by exact hr)]

/-- The trace of SHIFT_OUT of a whole frame: stages and latches hold the frame, whatever they held, and DATA its last
bit (R131). -/
theorem performAll_shiftOutTrace_full {bits : List Bit} (hb : bits.length = 24) {s : State}
    (hs : s.P.sck = false) (hr : s.P.rck = false) :
    performAll (shiftOutTrace bits) s =
      { s with
        P := { s.P with data := (bitsToValue 24 bits).getLsbD 0 }
        S := bitsToValue 24 bits
        L := bitsToValue 24 bits } := by
  rw [performAll_shiftOutTrace bits hs hr, foldl_shiftIn_full bits s.S hb,
    getLastD_eq_getLsbD_bitsToValue hb (by decide)]

/-- The trace of CLEAR blanks the block (R134, R135). -/
theorem performAll_clearTrace {s : State} (hs : s.P.sck = false) (hr : s.P.rck = false) :
    performAll clearTrace s =
      { s with
        P := { data := false, sck := false, rck := false, cal := false, strobeOut := false }
        S := 0x000000#24
        L := 0x000000#24 } := by
  rw [clearTrace, performAll_append, performAll_shiftOutTrace_full (length_valueToBits _) hs hr,
    bitsToValue_valueToBits, performAll_directWrite]
  simp only [hs, hr]
  rfl

/-- The trace of COMPOSE: stages and latches hold the frame and the direct outputs their two values (R150, R151). -/
theorem performAll_composeTrace (v : Frame) (c d : Bit) {s : State} (hs : s.P.sck = false) (hr : s.P.rck = false) :
    performAll (composeTrace v c d) s =
      { s with
        P := { data := v.getLsbD 0, sck := false, rck := false, cal := c, strobeOut := d }
        S := v
        L := v } := by
  rw [composeTrace, performAll_append, performAll_append, performAll_clearTrace hs hr,
    performAll_shiftOutTrace_full (length_valueToBits v) rfl rfl, bitsToValue_valueToBits, performAll_directWrite]

/-- Reads change no line, stage or latch (R113, R170). -/
theorem performAll_reads (ns : List InSignal) (s : State) :
    (performAll (ns.map .rd) s).P = s.P ∧ (performAll (ns.map .rd) s).S = s.S ∧
      (performAll (ns.map .rd) s).L = s.L := by
  induction ns generalizing s with
  | nil => exact ⟨rfl, rfl, rfl⟩
  | cons n ns ih => exact ih (perform (.rd n) s)

/-! ### Beginning an operation -/

/-- An operation begun on a live machine runs to its end in the steps its pending accesses take, and then the latches
hold what its whole expansion leaves there. -/
theorem start_runs_to_end {s : State} (b : Bool) {ms : List MicroOp} (hl : Live s) (hn : ms ≠ []) {v : Frame}
    (hL : (performAll ms s).L = v) :
    ∃ t u, start b ms s = .next t ∧ run t.seq.length t = .next u ∧ u.seq = [] ∧ u.L = v := by
  obtain ⟨m, rest, rfl⟩ := List.exists_cons_of_ne_nil hn
  have hlen : (advance (load b (m :: rest) s)).seq.length = (m :: rest).length - 1 := by
    rw [advance_cons rfl, settle_seq, withSeq_seq, List.length_cons, Nat.add_sub_cancel]
  refine ⟨_, settle (load b [] (performAll (m :: rest) s)), start_next b _ s, ?_, settle_seq _, ?_⟩
  · rw [hlen]
    exact start_complete b (m :: rest) hl hn
  · rw [settle_L, load_L, hL]

theorem stopped_of_fault {s : State} {f : Fault} (h : s.fault = some f) : s.stopped = some f := by
  simp only [State.stopped, h]

theorem step_stopped {s : State} {f : Fault} (h : s.stopped = some f) : step s = .fault f := by
  simp only [step, h]

/-- No operation begins on a stopped machine (R28, R193; log 9). -/
theorem exec_stopped {s : State} {f : Fault} (h : s.stopped = some f) (i : Instr) : exec i s = .fault f := by
  have hidle (k) : whenIdle s k = .fault f := by simp only [whenIdle, h]
  cases i with
  | sample => exact hidle _
  | clear => exact hidle _
  | shiftOut bits => rw [exec, execShiftOut, hidle]
  | compose o => rw [exec, execCompose, hidle]

/-! ### What a step can do, access by access -/

/-- Every expansion has at least two accesses. -/
theorem Expansion.exists_cons {s : State} {b : Bool} {ms : List MicroOp} (h : Expansion s b ms) :
    ∃ m rest, ms = m :: rest ∧ rest ≠ [] := by
  rcases h with ⟨_, rfl⟩ | ⟨_, rfl⟩ | ⟨_, bits, hb, rfl⟩ | ⟨_, v, c, d, rfl⟩
  · exact ⟨_, _, rfl, by simp⟩
  · exact ⟨_, _, rfl, by simp⟩
  · obtain ⟨b', bits', rfl⟩ := List.exists_cons_of_length_pos (by omega : 0 < bits.length)
    exact ⟨_, _, rfl, by simp⟩
  · exact ⟨_, _, rfl, by simp⟩

/-- Beginning an expansion performs its first access and leaves the others, so settling does nothing. -/
theorem Expansion.advance_load {s : State} {b : Bool} {ms : List MicroOp} (h : Expansion s b ms) :
    ∃ m rest, ms = m :: rest ∧ rest ≠ [] ∧ advance (load b ms s) = load b rest (perform m s) := by
  obtain ⟨m, rest, rfl, hr⟩ := h.exists_cons
  exact ⟨m, rest, rfl, hr, by rw [advance_cons rfl, settle_cons (by exact hr), perform_load, withSeq_load]⟩

/-- What a step can do: perform the next pending access, raise a fault, or perform the first access of an expansion. -/
theorem step_access_cases {s t : State} (h : step s = .next t) :
    (∃ m rest, s.seq = m :: rest ∧ t = settle (withSeq rest (perform m s))) ∨
      (s.seq = [] ∧ ∃ s' f, SameBlock s s' ∧ t = raiseFault f s') ∨
      (s.seq = [] ∧ ∃ s' b m rest, SameBlock s s' ∧ Expansion s' b (m :: rest) ∧ rest ≠ [] ∧
        t = load b rest (perform m s')) := by
  obtain ⟨-, hinside | ⟨hq, s', hsame, ⟨f, rfl⟩ | ⟨b, ms, he, rfl⟩⟩⟩ := step_cases h
  · exact .inl hinside
  · exact .inr (.inl ⟨hq, s', f, hsame, rfl⟩)
  · obtain ⟨m, rest, rfl, hr, heq⟩ := he.advance_load
    exact .inr (.inr ⟨hq, s', b, m, rest, hsame, he, hr, heq⟩)

/-- The block and the reads of `t` are those the pin access `m` leaves at `s`. -/
structure Accessed (m : MicroOp) (s t : State) : Prop where
  P : t.P = (perform m s).P
  S : t.S = (perform m s).S
  L : t.L = (perform m s).L
  I : t.I = (perform m s).I
  inputs : t.inputs = (perform m s).inputs
  reads : t.reads = (perform m s).reads

/-- What a pin access leaves in the block does not depend on what taking an operation changes. -/
theorem SameBlock.accessed {s s' : State} (h : SameBlock s s') (m : MicroOp) : Accessed m s (perform m s') := by
  cases m with
  | w x v => constructor <;> simp [perform, pinWrite_S, pinWrite_L, h.P, h.S, h.L, h.I, h.inputs, h.reads]
  | rd n => constructor <;> simp [perform, levelsAt, h.P, h.S, h.L, h.I, h.inputs, h.reads]

/-- A step raises a fault and changes nothing of the chain, or is one pin access. -/
theorem step_fault_or_accessed {s t : State} (h : step s = .next t) :
    (t.fault ≠ none ∧ t.S = s.S ∧ t.L = s.L) ∨
      ∃ m, (s.seq = m :: t.seq ∨ s.seq = [] ∧ IsTrace (m :: t.seq)) ∧ Accessed m s t := by
  obtain ⟨m, rest, hq, rfl⟩ | ⟨hq, s', f, hsame, rfl⟩ | ⟨hq, s', b, m, rest, hsame, he, -, rfl⟩ := step_access_cases h
  · exact .inr ⟨m, .inl (by simpa using hq), by constructor <;> simp⟩
  · exact .inl ⟨by simp, hsame.S, hsame.L⟩
  · obtain ⟨hP, hS, hL, hI, hinputs, hreads⟩ := hsame.accessed m
    exact .inr ⟨m, .inr ⟨hq, he.isTrace⟩, hP, hS, hL, hI, hinputs, hreads⟩

end Sys2Proof.Machine
end

section
/-! The invariant of R32 and R34, kept by every step, and the statements on the state (10_state.md). -/

namespace Sys2Proof.Machine

/-! ### The invariant between operations and within one -/

/-- Between operations the invariant speaks of the state as it is. -/
theorem invariant_idle_iff {s : State} (hq : s.seq = []) :
    Invariant s ↔ Config.Valid s.cfg ∧ s.booting = false ∧ s.P.sck = false ∧ s.P.rck = false ∧
      (s.phase = .running → s.S = s.L) := by
  have hp : projected s = s := by rw [projected, hq, performAll_nil]
  constructor
  · rintro ⟨hvalid, -, hboot, hquiet, hframed⟩
    rw [hp] at hquiet hframed
    have hb : s.booting = false := by
      by_contra hb
      exact (hboot (by simpa using hb)).2 hq
    exact ⟨hvalid, hb, hquiet.1, hquiet.2, fun hr => hframed (.inl hr)⟩
  · rintro ⟨hvalid, hb, hsck, hrck, hframed⟩
    refine ⟨hvalid, fun _ => hq, by simp [hb], ?_, ?_⟩
    · rw [hp]
      exact ⟨hsck, hrck⟩
    · rw [hp]
      simpa [hb] using hframed

/-- Between operations, a state with the same block meets the invariant too. -/
theorem Invariant.of_sameBlock {s s' : State} (hi : Invariant s) (h : SameBlock s s') (hq : s.seq = []) :
    Invariant s' := by
  rw [invariant_idle_iff hq] at hi
  rw [invariant_idle_iff (h.seq.trans hq), h.cfg, h.booting, h.P, h.phase, h.S, h.L]
  exact hi

/-- Raising a fault between operations keeps the invariant. -/
theorem invariant_raiseFault {s : State} (hi : Invariant s) (f : Fault) (hq : s.seq = []) :
    Invariant (raiseFault f s) := by
  rw [invariant_idle_iff hq] at hi
  exact (invariant_idle_iff rfl).mpr hi

/-- Where the operation in progress will end does not depend on when the phase moves. -/
theorem projected_settle (s : State) : projected (settle s) = settle (projected s) := by
  by_cases hq : s.seq = []
  · simp [projected, hq]
  · rw [settle_cons hq, settle_cons (by simpa using hq)]

/-- Performing a pending access does not change where the operation will end. -/
theorem projected_advance {s : State} {m : MicroOp} {rest : List MicroOp} (hq : s.seq = m :: rest) :
    projected (advance s) = settle (withSeq rest (projected s)) := by
  rw [advance_cons hq, projected_settle, projected, withSeq_seq, performAll_withSeq, projected, hq, performAll_cons]

/-- Performing a pending access keeps the invariant. -/
theorem invariant_advance {s : State} (hi : Invariant s) (hf : s.fault = none) {m : MicroOp} {rest : List MicroOp}
    (hq : s.seq = m :: rest) : Invariant (advance s) := by
  obtain ⟨hvalid, -, hboot, hquiet, hframed⟩ := hi
  have hproj := projected_advance hq
  have hadv := advance_cons hq
  constructor
  case valid => simpa [hadv] using hvalid
  case faulted => simp [hadv, hf]
  case boot =>
    intro hb
    obtain ⟨hrest, hb⟩ : rest ≠ [] ∧ s.booting = true := by simpa [hadv] using hb
    simpa [hadv, hrest] using (hboot hb).1
  case quiet => simpa [hproj] using hquiet
  case framed =>
    intro h
    have h' : s.phase = .running ∨ s.booting = true := by
      by_cases hb : s.booting = true
      · exact .inr hb
      · simpa [hadv, hb] using h
    simpa [hproj] using hframed h'

/-- Only in phase RESET is an operation the boot CLEAR (R171; log 7). -/
theorem Expansion.phase_eq_reset {s : State} {ms : List MicroOp} (h : Expansion s true ms) : s.phase = .reset := by
  rcases h with ⟨hb, -⟩ | ⟨hb, -⟩ | ⟨hb, -⟩ | ⟨hb, -⟩
  · cases hb
  · simpa using hb.symm
  · cases hb
  · cases hb

/-- Every expansion ends with the two clocks low (R32). -/
theorem Expansion.clocks_low {s : State} {b : Bool} {ms : List MicroOp} (h : Expansion s b ms)
    (hs : s.P.sck = false) (hr : s.P.rck = false) :
    (performAll ms s).P.sck = false ∧ (performAll ms s).P.rck = false := by
  rcases h with ⟨_, rfl⟩ | ⟨_, rfl⟩ | ⟨_, bits, hb, rfl⟩ | ⟨_, v, c, d, rfl⟩
  · simp [sampleTrace, performAll_reads, hs, hr]
  · simp [performAll_clearTrace hs hr]
  · simp [performAll_shiftOutTrace bits hs hr, hs, hr]
  · simp [performAll_composeTrace v c d hs hr]

/-- Every expansion that shifts ends with the stages in the latches; SAMPLE leaves both as they were (R34). -/
theorem Expansion.latched_or_kept {s : State} {b : Bool} {ms : List MicroOp} (h : Expansion s b ms)
    (hs : s.P.sck = false) (hr : s.P.rck = false) :
    (performAll ms s).S = (performAll ms s).L ∨
      (b = false ∧ (performAll ms s).S = s.S ∧ (performAll ms s).L = s.L) := by
  rcases h with ⟨hb, rfl⟩ | ⟨_, rfl⟩ | ⟨_, bits, _, rfl⟩ | ⟨_, v, c, d, rfl⟩
  · exact .inr ⟨hb, (performAll_reads InSignal.all s).2⟩
  · exact .inl (by rw [performAll_clearTrace hs hr])
  · exact .inl (by rw [performAll_shiftOutTrace bits hs hr])
  · exact .inl (by rw [performAll_composeTrace v c d hs hr])

/-- Loading an operation's expansion keeps the invariant. -/
theorem invariant_load {s : State} (hi : Invariant s) (hf : s.fault = none) (hq : s.seq = []) {b : Bool}
    {ms : List MicroOp} (he : Expansion s b ms) : Invariant (load b ms s) := by
  obtain ⟨hvalid, -, hsck, hrck, hframed⟩ := (invariant_idle_iff hq).mp hi
  have hproj : projected (load b ms s) = load b ms (performAll ms s) := performAll_load ms s b ms
  constructor
  case valid => exact hvalid
  case faulted => exact fun h => absurd hf h
  case boot =>
    rintro rfl
    exact ⟨he.phase_eq_reset, he.ne_nil⟩
  case quiet =>
    rw [hproj]
    exact he.clocks_low hsck hrck
  case framed =>
    intro hrun
    rw [hproj, load_S, load_L]
    obtain hlatched | ⟨rfl, hS, hL⟩ := he.latched_or_kept hsck hrck
    · exact hlatched
    · rw [hS, hL]
      exact hframed (by simpa using hrun)

/-- The wiring table of this hardware passes the check (R81, R86). -/
theorem standard_valid : Config.Valid .standard := by decide

/-- A configuration that construction accepts starts in the invariant, whatever the draws (R30). -/
theorem invariant_resetWith {c : Config} (d : ResetDraws) (hc : Config.Valid c) : Invariant (.resetWith c d) :=
  (invariant_idle_iff rfl).mpr ⟨hc, rfl, rfl, rfl, fun h => nomatch h⟩

/-! ### The statements on the state -/

/-- Settles O53: performing a pending access, raising a fault and loading an expansion each keep the invariant
(`invariant_advance`, `invariant_raiseFault`, `invariant_load`), and a step is made of these. -/
theorem stepKeepsInvariant : Obligations.StepKeepsInvariant := by
  intro s t hi h
  obtain ⟨hl, hstep⟩ := step_cases h
  obtain ⟨m, rest, hq, rfl⟩ | ⟨hq, s', hsame, hbegin⟩ := hstep
  · rw [← advance_cons hq]
    exact invariant_advance hi hl.fault_eq_none hq
  · have hi' : Invariant s' := hi.of_sameBlock hsame hq
    have hq' : s'.seq = [] := hsame.seq.trans hq
    have hf' : s'.fault = none := (hsame.live hl).fault_eq_none
    obtain ⟨f, rfl⟩ | ⟨b, ms, he, rfl⟩ := hbegin
    · exact invariant_raiseFault hi' f hq'
    · obtain ⟨m, rest, rfl⟩ := List.exists_cons_of_ne_nil he.ne_nil
      exact invariant_advance (invariant_load hi' hf' hq' he) hf' rfl

/-- Settles O9: a step that raises no fault is one pin access (`step_fault_or_accessed`). -/
theorem stepIsOnePinAccess : Obligations.StepIsOnePinAccess := by
  intro s t h hf
  obtain ⟨hfault, -⟩ | ⟨m, hseq, hP, hS, hL, hI, hinputs, hreads⟩ := step_fault_or_accessed h
  · exact absurd hf hfault
  · exact ⟨m, hseq, hP, hS, hL, hI, hinputs, hreads⟩

/-- Settles O54: between operations the invariant is `invariant_idle_iff`; and each operation runs to the end of its
expansion (`start_runs_to_end`), whose effect on the latches the `performAll` lemmas give. -/
theorem invariantBetweenOperations : Obligations.InvariantBetweenOperations := by
  refine ⟨fun s hi hq => ?_, fun i s ⟨hl, hsck, hrck, hq⟩ hwf => ?_⟩
  · obtain ⟨-, hb, hsck, hrck, hframed⟩ := (invariant_idle_iff hq).mp hi
    exact ⟨⟨hsck, hrck, hq⟩, hb, hframed⟩
  cases i with
  | sample =>
    rw [exec_sample_eq_start hl hq]
    exact start_runs_to_end _ hl sampleTrace_ne_nil (performAll_reads InSignal.all s).2.2
  | clear =>
    rw [exec_clear_eq_start hl hq]
    exact start_runs_to_end _ hl clearTrace_ne_nil (by rw [performAll_clearTrace hsck hrck])
  | shiftOut bits =>
    have hb : bits.length = 24 := beq_iff_eq.mp hwf
    rw [exec_shiftOut_eq_start hl hq hb]
    exact start_runs_to_end _ hl (shiftOutTrace_ne_nil bits) (by rw [performAll_shiftOutTrace_full hb hsck hrck])
  | compose o =>
    have hdef := (OutputSnapshot.allDefined_iff o).mp hwf
    obtain ⟨c, hc⟩ := Option.isSome_iff_exists.mp (hdef .cal)
    obtain ⟨d, hd⟩ := Option.isSome_iff_exists.mp (hdef .strobeOut)
    rw [exec_compose_eq_start hl hq hwf hc hd]
    exact start_runs_to_end _ hl (composeTrace_ne_nil _ c d) (by rw [performAll_composeTrace _ c d hsck hrck])

/-- Settles O55: a step is a fault, which changes no latch, or one pin access (`perform_L_cases`). -/
theorem latchesChangeOnlyAtLatchEdge : Obligations.LatchesChangeOnlyAtLatchEdge := by
  intro s t h
  obtain ⟨-, -, hL⟩ | ⟨m, -, ha⟩ := step_fault_or_accessed h
  · exact .inl hL
  · rw [ha.P, ha.S, ha.L]
    exact perform_L_cases m s

/-- Settles O56: a step is a fault, which changes no stage, or one pin access (`perform_S_cases`). -/
theorem stagesChangeOnlyAtShiftEdge : Obligations.StagesChangeOnlyAtShiftEdge := by
  intro s t h
  obtain ⟨-, hS, -⟩ | ⟨m, -, ha⟩ := step_fault_or_accessed h
  · exact .inl hS
  · rw [ha.P, ha.S, ha.L]
    exact perform_S_cases m s

/-- Settles O57: only settling moves the phase, and an operation just begun has accesses left. -/
theorem phaseMovesOnceAtEndOfBoot : Obligations.PhaseMovesOnceAtEndOfBoot := by
  intro s t h
  obtain ⟨m, rest, hq, rfl⟩ | hbegin := step_access_cases h
  · refine ⟨fun hs => by simp [hs], fun hs ht => ?_⟩
    obtain ⟨rfl, hb⟩ : rest = [] ∧ s.booting = true := by simpa [hs] using ht
    exact ⟨hb, settle_seq _, m, hq⟩
  · have hphase : t.phase = s.phase := by
      obtain ⟨-, s', f, hsame, rfl⟩ | ⟨-, s', b, m, rest, hsame, -, -, rfl⟩ := hbegin
      · exact hsame.phase
      · exact (perform_phase m s').trans hsame.phase
    rw [hphase]
    exact ⟨id, fun hs hr => absurd (hs.symm.trans hr) (by decide)⟩

/-- Settles O58: taking an operation may take one word (`SameBlock`), and nothing else writes these fields. -/
theorem constantsAreNeverWritten : Obligations.ConstantsAreNeverWritten := by
  intro s t h
  obtain ⟨m, rest, -, rfl⟩ | ⟨-, s', f, hsame, rfl⟩ | ⟨-, s', b, m, rest, hsame, -, -, rfl⟩ := step_access_cases h
  · simp
  · exact ⟨hsame.cfg, hsame.mode, hsame.commands⟩
  · simpa using ⟨hsame.cfg, hsame.mode, hsame.commands⟩

/-- Settles O6: an idle live machine takes the next operation, in command mode from the next word. -/
theorem stepRunsDecodedWord : Obligations.StepRunsDecodedWord := by
  intro s w rest i hl hq hm hc hd
  rw [step_idle hl hq]
  simp only [takeOperation, hm, takeCommand, hc, hd]

/-- Settles O8: a step within an operation is `advance`, and settling moves the phase as `settle_eq` says. -/
theorem stepPerformsHeadOfSeq : Obligations.StepPerformsHeadOfSeq := by
  intro s m rest hl hq
  rw [step_cons hl hq, advance_cons hq, settle_eq]
  simp [withSeq]

/-- Settles O14: bit by bit (`getLsbD_shiftIn`). -/
theorem shiftEdgeMovesEveryStage : Obligations.ShiftEdgeMovesEveryStage := by
  intro s
  refine ⟨?_, fun i hi => ?_, rfl, rfl⟩
  · rw [shiftEdge_S, getLsbD_shiftIn]
    simp
  · rw [shiftEdge_S, getLsbD_shiftIn]
    simp [show i + 1 < 24 by omega]

/-- Settles O15: each register is a field of consecutive stages (`extractLsb'_shiftIn`). -/
theorem registersAreCascaded : Obligations.RegistersAreCascaded := fun s =>
  ⟨extractLsb'_shiftIn s.S s.P.data 0 8 (by decide), extractLsb'_shiftIn s.S s.P.data 8 8 (by decide),
    extractLsb'_shiftIn s.S s.P.data 16 8 (by decide)⟩

/-- Settles O46: every value is read off `State.resetWith`. -/
theorem resetState : Obligations.ResetState := by
  intro c d
  exact ⟨rfl, rfl, rfl, rfl, rfl, rfl, rfl, standard_valid⟩

/-- Settles O51: a latched fault stops the machine, and a stopped machine neither steps nor begins an operation. -/
theorem faultStopsTheMachine : Obligations.FaultStopsTheMachine := by
  intro s f hf
  have hstop := stopped_of_fault hf
  exact ⟨step_stopped hstop, exec_stopped hstop, fun n => by rw [run_succ, step_stopped hstop]⟩

/-- Settles O52: for every accepted configuration (`invariant_resetWith`), and so for this hardware's. -/
theorem invariantAtReset : Obligations.InvariantAtReset :=
  ⟨fun _ d hc => invariant_resetWith d hc, invariant_resetWith _ standard_valid⟩

end Sys2Proof.Machine
end

section
/-! DATA is written only while both clocks are low (20_memory.md, R62): a property of traces, kept by appending them. -/

namespace Sys2Proof.Machine

/-- SCK and RCK rest low (R32). -/
def ClocksLow (s : State) : Prop := s.P.sck = false ∧ s.P.rck = false

/-- Begun with both clocks low, the trace ends so, and they are low at each of its writes to DATA (R32, R62). -/
structure DataOnlyWhileLow (ms : List MicroOp) : Prop where
  ends : ∀ {s : State}, ClocksLow s → ClocksLow (performAll ms s)
  writes : ∀ {s : State} {before after : List MicroOp} {b : Bit}, ClocksLow s →
    ms = before ++ .w .data b :: after → ClocksLow (performAll before s)

/-- A trace that writes no DATA has only its end to answer for. -/
theorem DataOnlyWhileLow.of_no_data {ms : List MicroOp}
    (hends : ∀ {s : State}, ClocksLow s → ClocksLow (performAll ms s)) (hno : ∀ b, .w .data b ∉ ms) :
    DataOnlyWhileLow ms where
  ends := hends
  writes {_ _ _ b} _ h := absurd (by simp [h]) (hno b)

/-- A write to DATA falls in the first trace, and is judged there, or in the second, which begins with the clocks low. -/
theorem DataOnlyWhileLow.append {ms ms' : List MicroOp} (h : DataOnlyWhileLow ms) (h' : DataOnlyWhileLow ms') :
    DataOnlyWhileLow (ms ++ ms') where
  ends hs := by
    rw [performAll_append]
    exact h'.ends (h.ends hs)
  writes hs hsplit := by
    obtain ⟨rest, rfl, heq⟩ | ⟨rest, rfl, heq⟩ := List.append_eq_append_iff.mp hsplit
    · rw [performAll_append]
      exact h'.writes (h.ends hs) heq
    · cases rest with
      | nil => simpa using h.ends hs
      | cons m rest =>
        obtain ⟨rfl, -⟩ := List.cons.inj heq
        exact h.writes hs rfl

/-- A bit cell writes DATA first, before its clock rises (R114). -/
theorem dataOnlyWhileLow_shiftBit (b : Bit) : DataOnlyWhileLow (shiftBit b) where
  ends hs := by
    rw [performAll_shiftBit b hs.1]
    exact hs
  writes {_ before _ b'} hs heq := by
    cases before with
    | nil => exact hs
    | cons m before =>
      have hmem : .w .data b' ∈ [MicroOp.w .sck true, .w .sck false] := by simp [(List.cons.inj heq).2]
      simp at hmem

theorem dataOnlyWhileLow_cells (bits : List Bit) : DataOnlyWhileLow (bits.flatMap shiftBit) := by
  induction bits with
  | nil => exact .of_no_data id (by simp)
  | cons b bits ih => exact (dataOnlyWhileLow_shiftBit b).append ih

theorem dataOnlyWhileLow_latchPulse : DataOnlyWhileLow latchPulse := by
  refine .of_no_data (fun hs => ?_) (by simp [latchPulse])
  rw [performAll_latchPulse hs.2]
  exact hs

theorem dataOnlyWhileLow_directWrite (c d : Bit) : DataOnlyWhileLow (directWrite c d) :=
  .of_no_data id (by simp [directWrite])

theorem dataOnlyWhileLow_shiftOutTrace (bits : List Bit) : DataOnlyWhileLow (shiftOutTrace bits) :=
  (dataOnlyWhileLow_cells bits).append dataOnlyWhileLow_latchPulse

theorem dataOnlyWhileLow_clearTrace : DataOnlyWhileLow clearTrace :=
  (dataOnlyWhileLow_shiftOutTrace _).append (dataOnlyWhileLow_directWrite false false)

theorem dataOnlyWhileLow_composeTrace (v : Frame) (c d : Bit) : DataOnlyWhileLow (composeTrace v c d) :=
  (dataOnlyWhileLow_clearTrace.append (dataOnlyWhileLow_shiftOutTrace _)).append (dataOnlyWhileLow_directWrite c d)

/-- Settles O59: the writing operations are made of bit cells, latch pulses and direct writes, each of which leaves the
clocks low and writes DATA only while they are (`DataOnlyWhileLow`). -/
theorem dataChangesOnlyWhileClockIsLow : Obligations.DataChangesOnlyWhileClockIsLow := by
  intro ms before after b s hms hsck hrck heq
  have hlow : DataOnlyWhileLow ms := by
    obtain rfl | ⟨bits, rfl⟩ | ⟨v, c, d, rfl⟩ := hms
    · exact dataOnlyWhileLow_clearTrace
    · exact dataOnlyWhileLow_shiftOutTrace bits
    · exact dataOnlyWhileLow_composeTrace v c d
  exact hlow.writes ⟨hsck, hrck⟩ heq

end Sys2Proof.Machine
end

section
/-! The command word (30_encoding.md section 5, R87 to R91): the decoder row by row of the opcode map, and a word as its
three fields, which the encoder fills and the decoder reads. -/

namespace Sys2Proof

open Machine

/-! ### The decoder, row by row -/

theorem decode_zeroField {w : CommandWord} (hz : w.extractLsb' 26 2 ≠ 0#2) : decode w = .error .zeroField := by
  simp [decode, hz]

theorem decode_sampleRow {w : CommandWord} (hz : w.extractLsb' 26 2 = 0#2) (hop : w.extractLsb' 28 4 = 0x1#4) :
    decode w = if w.extractLsb' 0 26 = 0#26 then .ok .sample else .error .argNotZero := by
  simp [decode, hz, hop]

theorem decode_clearRow {w : CommandWord} (hz : w.extractLsb' 26 2 = 0#2) (hop : w.extractLsb' 28 4 = 0x2#4) :
    decode w = if w.extractLsb' 0 26 = 0#26 then .ok .clear else .error .argNotZero := by
  simp [decode, hz, hop]

theorem decode_shiftOutRow {w : CommandWord} (hz : w.extractLsb' 26 2 = 0#2) (hop : w.extractLsb' 28 4 = 0x3#4) :
    decode w = if w.extractLsb' 24 2 = 0#2 then .ok (.shiftOut (valueToBits (w.extractLsb' 0 24)))
      else .error .frameTooWide := by
  simp [decode, hz, hop]

theorem decode_composeRow {w : CommandWord} (hz : w.extractLsb' 26 2 = 0#2) (hop : w.extractLsb' 28 4 = 0x4#4) :
    decode w = .ok (.compose (.unpack (w.extractLsb' 0 26))) := by
  simp [decode, hz, hop]

theorem decode_reservedRow {w : CommandWord} (hz : w.extractLsb' 26 2 = 0#2)
    (hop : w.extractLsb' 28 4 = 0x0#4 ∨ 0x5#4 ≤ w.extractLsb' 28 4) : decode w = .error .reservedOp := by
  have h1 : w.extractLsb' 28 4 ≠ 0x1#4 := by bv_omega
  have h2 : w.extractLsb' 28 4 ≠ 0x2#4 := by bv_omega
  have h3 : w.extractLsb' 28 4 ≠ 0x3#4 := by bv_omega
  have h4 : w.extractLsb' 28 4 ≠ 0x4#4 := by bv_omega
  simp [decode, hz, h1, h2, h3, h4]

/-- Every `op` is that of one of the four operations, or reserved (R88, R89). -/
theorem op_cases (op : BitVec 4) :
    op = 0x1#4 ∨ op = 0x2#4 ∨ op = 0x3#4 ∨ op = 0x4#4 ∨ (op = 0x0#4 ∨ 0x5#4 ≤ op) := by
  bv_omega

/-! ### The fields of a word -/

/-- A word is `op`, the zero field and `arg` in a row (R87). -/
theorem append_fields (w : CommandWord) :
    w.extractLsb' 28 4 ++ (w.extractLsb' 26 2 ++ w.extractLsb' 0 26) = w := by
  rw [BitVec.extractLsb'_append_extractLsb'_eq_extractLsb' (show 26 = 0 + 26 from rfl),
    BitVec.extractLsb'_append_extractLsb'_eq_extractLsb' (show 28 = 0 + (2 + 26) from rfl), BitVec.extractLsb'_eq_self]

theorem commandWord_ext {w w' : CommandWord} (hop : w.extractLsb' 28 4 = w'.extractLsb' 28 4)
    (hz : w.extractLsb' 26 2 = w'.extractLsb' 26 2) (harg : w.extractLsb' 0 26 = w'.extractLsb' 0 26) : w = w' := by
  rw [← append_fields w, hop, hz, harg, append_fields]

/-- The `op` of an operation's word (R88). -/
def Instr.op : Instr → BitVec 4
  | .sample => 0x1#4
  | .clear => 0x2#4
  | .shiftOut _ => 0x3#4
  | .compose _ => 0x4#4

/-- The `arg` of an operation's word (R88). -/
def Instr.arg : Instr → BitVec 26
  | .sample => 0#26
  | .clear => 0#26
  | .shiftOut bits => (bitsToValue 24 bits).setWidth 26
  | .compose o => o.pack

/-- An operand of `n` bits leaves the fields above it as they are. -/
theorem extractLsb'_or_setWidth_of_le {n m start : Nat} (w : BitVec m) (v : BitVec n) (len : Nat) (h : n ≤ start) :
    (w ||| v.setWidth m).extractLsb' start len = w.extractLsb' start len := by
  apply BitVec.eq_of_getLsbD_eq
  intro i _
  simp [BitVec.getLsbD_of_ge v (start + i) (by omega)]

theorem encode_op (i : Instr) : (encode i).extractLsb' 28 4 = i.op := by
  cases i with
  | sample => rfl
  | clear => rfl
  | shiftOut bits => exact extractLsb'_or_setWidth_of_le _ (bitsToValue 24 bits) 4 (by decide)
  | compose o => exact extractLsb'_or_setWidth_of_le _ o.pack 4 (by decide)

theorem encode_zero (i : Instr) : (encode i).extractLsb' 26 2 = 0#2 := by
  cases i with
  | sample => rfl
  | clear => rfl
  | shiftOut bits => exact extractLsb'_or_setWidth_of_le _ (bitsToValue 24 bits) 2 (by decide)
  | compose o => exact extractLsb'_or_setWidth_of_le _ o.pack 2 (by decide)

theorem encode_arg (i : Instr) : (encode i).extractLsb' 0 26 = i.arg := by
  cases i with
  | sample => rfl
  | clear => rfl
  | shiftOut bits => simp [encode, Instr.arg, BitVec.extractLsb'_or, ← BitVec.setWidth_eq_extractLsb']
  | compose o => simp [encode, Instr.arg, BitVec.extractLsb'_or, BitVec.extractLsb'_setWidth_of_le]

/-- The word of an operation is the one word with its fields (R88). -/
theorem encode_eq_iff {i : Instr} {w : CommandWord} :
    encode i = w ↔ w.extractLsb' 28 4 = i.op ∧ w.extractLsb' 26 2 = 0#2 ∧ w.extractLsb' 0 26 = i.arg := by
  constructor
  · rintro rfl
    exact ⟨encode_op i, encode_zero i, encode_arg i⟩
  · rintro ⟨hop, hz, harg⟩
    exact commandWord_ext ((encode_op i).trans hop.symm) ((encode_zero i).trans hz.symm)
      ((encode_arg i).trans harg.symm)

/-! ### The operands of SHIFT_OUT and COMPOSE -/

/-- The word of SHIFT_OUT carries two zero bits and its frame (R88). -/
theorem encode_shiftOut_frame (bits : List Bit) :
    (encode (.shiftOut bits)).extractLsb' 24 2 = 0#2 ∧
      (encode (.shiftOut bits)).extractLsb' 0 24 = bitsToValue 24 bits :=
  ⟨extractLsb'_or_setWidth_of_le _ (bitsToValue 24 bits) 2 (by decide),
    by simp [encode, BitVec.extractLsb'_or, BitVec.extractLsb'_setWidth_of_le]⟩

/-- An `arg` whose two upper bits are 0 is its frame (R88). -/
theorem setWidth_extractLsb'_frame {w : CommandWord} (h : w.extractLsb' 24 2 = 0#2) :
    (w.extractLsb' 0 24).setWidth 26 = w.extractLsb' 0 26 := by
  rw [← BitVec.extractLsb'_append_extractLsb'_eq_extractLsb' (len₁ := 24) (len₂ := 2) (show 24 = 0 + 24 from rfl), h]
  exact BitVec.setWidth_eq_append (by decide)

@[simp] theorem OutputSnapshot.allDefined_unpack (p : BitVec 26) : (OutputSnapshot.unpack p).allDefined = true :=
  (OutputSnapshot.allDefined_iff _).mpr fun x => by simp [OutputSnapshot.unpack]

/-- The snapshot a number stands for packs to that number (R83). -/
@[simp] theorem OutputSnapshot.pack_unpack (p : BitVec 26) : (OutputSnapshot.unpack p).pack = p := by
  apply BitVec.eq_of_getLsbD_eq
  intro i hi
  obtain ⟨x, rfl⟩ := OutSignal.exists_bit hi
  simp [OutputSnapshot.getLsbD_pack, OutputSnapshot.unpack]

/-- In a defined snapshot every value is a bit (R150). -/
theorem OutputSnapshot.some_getD_get {o : OutputSnapshot} (h : o.allDefined = true) (x : OutSignal) :
    some ((o.get x).getD false) = o.get x := by
  obtain ⟨b, hb⟩ := Option.isSome_iff_exists.mp ((OutputSnapshot.allDefined_iff o).mp h x)
  rw [hb, Option.getD_some]

/-- A defined snapshot is the one its packed form stands for (R83, R87). -/
theorem OutputSnapshot.unpack_pack {o : OutputSnapshot} (h : o.allDefined = true) : .unpack o.pack = o :=
  OutputSnapshot.ext_get fun x => by
    rw [OutputSnapshot.unpack, OutputSnapshot.get_ofFn, OutputSnapshot.getLsbD_pack, some_getD_get h]

/-! ### The statements on command words -/

/-- Settles O2: each operation's word has the `op` of its row, and the row's operand reads back what was written. -/
theorem decodeOfEncode : Obligations.DecodeOfEncode := by
  intro i hwf
  cases i with
  | sample => rfl
  | clear => rfl
  | shiftOut bits =>
    obtain ⟨hwide, hframe⟩ := encode_shiftOut_frame bits
    rw [decode_shiftOutRow (encode_zero _) (encode_op _), if_pos hwide, hframe,
      valueToBits_bitsToValue bits (beq_iff_eq.mp hwf)]
  | compose o =>
    rw [decode_composeRow (encode_zero _) (encode_op _), encode_arg, Instr.arg, OutputSnapshot.unpack_pack hwf]

/-- Settles O3: in each row of the opcode map the operation decoded has the word's fields (`encode_eq_iff`). -/
theorem encodeOfDecode : Obligations.EncodeOfDecode := by
  intro w i h
  rw [encode_eq_iff]
  by_cases hz : w.extractLsb' 26 2 = 0#2
  · obtain hop | hop | hop | hop | hop := op_cases (w.extractLsb' 28 4)
    · rw [decode_sampleRow hz hop] at h
      split at h
      next harg =>
        cases h
        exact ⟨rfl, hop, hz, harg⟩
      next => cases h
    · rw [decode_clearRow hz hop] at h
      split at h
      next harg =>
        cases h
        exact ⟨rfl, hop, hz, harg⟩
      next => cases h
    · rw [decode_shiftOutRow hz hop] at h
      split at h
      next hwide =>
        cases h
        refine ⟨beq_iff_eq.mpr (length_valueToBits _), hop, hz, ?_⟩
        rw [Instr.arg, bitsToValue_valueToBits, setWidth_extractLsb'_frame hwide]
      next => cases h
    · rw [decode_composeRow hz hop] at h
      cases h
      exact ⟨OutputSnapshot.allDefined_unpack _, hop, hz, (OutputSnapshot.pack_unpack _).symm⟩
    · rw [decode_reservedRow hz hop] at h
      cases h
  · rw [decode_zeroField hz] at h
    cases h

/-- Settles O4: row by row of the opcode map, the row's own check is the clause of R89 that names its `op`. -/
theorem illegalWordsAreThoseListed : Obligations.IllegalWordsAreThoseListed := by
  intro w
  by_cases hz : w.extractLsb' 26 2 = 0#2
  · obtain hop | hop | hop | hop | hop := op_cases (w.extractLsb' 28 4)
    · rw [decode_sampleRow hz hop, hz, hop]
      by_cases harg : w.extractLsb' 0 26 = 0#26 <;> simp [harg, Except.toOption]
    · rw [decode_clearRow hz hop, hz, hop]
      by_cases harg : w.extractLsb' 0 26 = 0#26 <;> simp [harg, Except.toOption]
    · rw [decode_shiftOutRow hz hop, hz, hop]
      by_cases hwide : w.extractLsb' 24 2 = 0#2 <;> simp [hwide, Except.toOption]
    · simp [decode_composeRow hz hop, hz, hop, Except.toOption]
    · simp [decode_reservedRow hz hop, hop, Except.toOption]
  · simp [decode_zeroField hz, hz, Except.toOption]

/-- Settles O1: each listed word is decoded. -/
theorem decodeReadsListedWords : Obligations.DecodeReadsListedWords := by
  refine ⟨by decide, by decide, by decide, by decide, by decide, fun w hw => ?_⟩
  fin_cases hw <;> decide

/-- Settles O5: each listed line is assembled. -/
theorem assemblyGivesListedWords : Obligations.AssemblyGivesListedWords := by
  unfold Obligations.AssemblyGivesListedWords
  decide

/-- Settles O48: an idle live machine takes the next word, and a word the decoder refuses raises its fault. -/
theorem illegalWordFaults : Obligations.IllegalWordFaults := by
  intro s w rest hl hq hm hc hw
  cases hd : decode w with
  | ok i => simp [hd, Except.toOption] at hw
  | error e =>
    rw [step_idle hl hq]
    simp only [takeOperation, hm, takeCommand, hc, hd, raiseFault, hq]

end Sys2Proof
end

section
/-! The wiring table (30_encoding.md sections 2 and 4, R81, R85, R86): a table passes the check exactly when it is a
rearrangement of the enumerated one, and ASSEMBLE reads the snapshot position by position. -/

namespace Sys2Proof

open Machine

/-! ### The check -/

theorem OutSignal.frameBound_iff {x : OutSignal} : x.frameBound = true ↔ x ≠ .cal ∧ x ≠ .strobeOut := by
  simp [OutSignal.frameBound]

theorem WiringEntry.proper_iff {e : WiringEntry} :
    e.proper = true ↔ ∃ x : OutSignal, x.frameBound = true ∧ .signal x = e := by
  cases e <;> simp [WiringEntry.proper]

theorem Wiring.length_enumerated : Wiring.enumerated.length = 24 := rfl

theorem Wiring.nodup_enumerated : Wiring.enumerated.Nodup := by decide

/-- The enumerated table holds exactly the frame-bound signals (R81). -/
theorem Wiring.mem_enumerated {x : OutSignal} : x ∈ Wiring.enumerated ↔ x.frameBound = true := by
  cases x <;> decide

/-- The three checks of R86 as propositions. -/
theorem Wiring.defect_eq_none_iff {table : List WiringEntry} :
    Wiring.defect table = none ↔ table.length = 24 ∧ (∀ e ∈ table, e.proper = true) ∧
      ∀ x : OutSignal, x.frameBound = true → .signal x ∈ table := by
  have hproper : table.all WiringEntry.proper = true ↔ ∀ e ∈ table, e.proper = true := List.all_eq_true
  have hall : OutSignal.all.all (fun x => !x.frameBound || table.contains (.signal x)) = true ↔
      ∀ x : OutSignal, x.frameBound = true → .signal x ∈ table := by
    simp [OutSignal.mem_all, imp_iff_not_or]
  rw [← hproper, ← hall, Wiring.defect]
  generalize table.all WiringEntry.proper = proper, OutSignal.all.all _ = complete
  split_ifs <;> simp_all

/-- A table passes the check exactly when it is the enumerated one in some order: 24 entries that hold the 24 frame-bound
signals can hold no more and none twice (R86). -/
theorem Wiring.defect_eq_none_iff_perm {table : List WiringEntry} :
    Wiring.defect table = none ↔ ∃ xs : List OutSignal, table = xs.map .signal ∧ xs.Perm Wiring.enumerated := by
  rw [Wiring.defect_eq_none_iff]
  constructor
  · rintro ⟨hlen, hproper, hall⟩
    obtain ⟨xs, rfl⟩ : table ∈ Set.range (List.map WiringEntry.signal) := by
      rw [Set.range_list_map]
      exact fun e he => (WiringEntry.proper_iff.mp (hproper e he)).imp fun _ => And.right
    have hsub : Wiring.enumerated ⊆ xs := fun x hx => by simpa using hall x (Wiring.mem_enumerated.mp hx)
    rw [List.length_map] at hlen
    exact ⟨xs, rfl, ((Wiring.nodup_enumerated.subperm hsub).perm_of_length_le hlen.le).symm⟩
  · rintro ⟨xs, rfl, hperm⟩
    refine ⟨by rw [List.length_map, hperm.length_eq, length_enumerated], ?_, ?_⟩
    · simp [hperm.mem_iff, mem_enumerated, WiringEntry.proper]
    · simp [hperm.mem_iff, mem_enumerated]

/-! ### ASSEMBLE -/

/-- ASSEMBLE of a table that names a signal at every position (R85). -/
theorem assemble_signals (xs : List OutSignal) (mask : Frame) (o : OutputSnapshot) :
    assemble ⟨xs.map .signal, mask⟩ o = bitsToValue 24 (xs.map fun x => (o.get x).getD false) ^^^ mask := by
  rw [assemble, List.map_map]
  rfl

/-- Sequences of full length that stand for one number are equal (R11). -/
theorem bitsToValue_inj {n : Nat} {bits bits' : List Bit} (h : bits.length = n) (h' : bits'.length = n) :
    bitsToValue n bits = bitsToValue n bits' ↔ bits = bits' :=
  ⟨fun he => by rw [← valueToBits_bitsToValue bits h, he, valueToBits_bitsToValue bits' h'], congrArg _⟩

/-- Two snapshots assemble to one frame exactly when they agree on the frame-bound signals, an undefined value counting
as 0 (R85). -/
theorem assemble_eq_iff {c : Config} (hc : Config.Valid c) (o o' : OutputSnapshot) :
    assemble c o = assemble c o' ↔
      ∀ x : OutSignal, x.frameBound = true → (o.get x).getD false = (o'.get x).getD false := by
  obtain ⟨_, mask⟩ := c
  obtain ⟨xs, rfl, hperm⟩ := Wiring.defect_eq_none_iff_perm.mp hc
  have hlen : xs.length = 24 := hperm.length_eq
  rw [assemble_signals, assemble_signals, BitVec.xor_left_inj, bitsToValue_inj (by simpa) (by simpa), List.map_inj_left]
  simp only [hperm.mem_iff, Wiring.mem_enumerated]

/-- The snapshot whose signals, in the order of `xs`, have the values of `bits`, all others being 0. -/
def OutputSnapshot.ofBits (xs : List OutSignal) (bits : List Bit) : OutputSnapshot :=
  .ofFn fun x => some (bits.getD (xs.idxOf x) false)

theorem OutputSnapshot.allDefined_ofBits (xs : List OutSignal) (bits : List Bit) :
    (OutputSnapshot.ofBits xs bits).allDefined = true :=
  (OutputSnapshot.allDefined_iff _).mpr fun x => by simp [OutputSnapshot.ofBits]

theorem OutputSnapshot.map_get_ofBits {xs : List OutSignal} {bits : List Bit} (hxs : xs.Nodup)
    (hlen : xs.length = bits.length) :
    (xs.map fun x => ((OutputSnapshot.ofBits xs bits).get x).getD false) = bits := by
  apply List.ext_getElem
  · simpa using hlen
  · intro k _ hk
    simp [OutputSnapshot.ofBits, hxs.idxOf_getElem, hk]

/-- Every frame is assembled from some snapshot: the one that has the frame's bits at the table's positions (R85). -/
theorem exists_assemble_eq {c : Config} (hc : Config.Valid c) (v : Frame) :
    ∃ o : OutputSnapshot, o.allDefined = true ∧ assemble c o = v := by
  obtain ⟨_, mask⟩ := c
  obtain ⟨xs, rfl, hperm⟩ := Wiring.defect_eq_none_iff_perm.mp hc
  have hlen : xs.length = (valueToBits (v ^^^ mask)).length := by
    rw [length_valueToBits, hperm.length_eq, Wiring.length_enumerated]
  refine ⟨.ofBits xs (valueToBits (v ^^^ mask)), OutputSnapshot.allDefined_ofBits _ _, ?_⟩
  rw [assemble_signals, OutputSnapshot.map_get_ofBits (hperm.nodup_iff.mpr Wiring.nodup_enumerated) hlen,
    bitsToValue_valueToBits, BitVec.xor_assoc, BitVec.xor_self, BitVec.xor_zero]

/-! ### The statements on the wiring table -/

/-- Settles O30: two snapshots of one frame agree on the frame-bound signals (`assemble_eq_iff`), and every frame is
assembled (`exists_assemble_eq`). -/
theorem assembleIsBijective : Obligations.AssembleIsBijective := by
  intro c hc
  refine ⟨fun o o' ho ho' h x hcal hstrobe => ?_, exists_assemble_eq hc⟩
  have hx := (assemble_eq_iff hc o o').mp h x (OutSignal.frameBound_iff.mpr ⟨hcal, hstrobe⟩)
  rw [← OutputSnapshot.some_getD_get ho, hx, OutputSnapshot.some_getD_get ho']

/-- Settles O31: the frame depends on the frame-bound signals alone (`assemble_eq_iff`). -/
theorem assembleIgnoresDirectSignals : Obligations.AssembleIgnoresDirectSignals := by
  intro c o o' hc h
  rw [assemble_eq_iff hc]
  intro x hx
  obtain ⟨hcal, hstrobe⟩ := OutSignal.frameBound_iff.mp hx
  rw [h x hcal hstrobe]

/-- Settles O32: the rearrangements of the enumerated table (`Wiring.defect_eq_none_iff_perm`) are the lists that hold its
signals, each once. -/
theorem wiringCheckIsBijection : Obligations.WiringCheckIsBijection := by
  intro table
  simp only [Wiring.defect_eq_none_iff_perm, ← OutSignal.frameBound_iff, ← Wiring.mem_enumerated]
  constructor
  · rintro ⟨xs, rfl, hperm⟩
    exact ⟨by rw [List.length_map, hperm.length_eq, Wiring.length_enumerated], xs, rfl,
      hperm.nodup_iff.mpr Wiring.nodup_enumerated, fun _ => hperm.mem_iff⟩
  · rintro ⟨-, xs, rfl, hnodup, hmem⟩
    exact ⟨xs, rfl, (List.perm_ext_iff_of_nodup hnodup Wiring.nodup_enumerated).mpr hmem⟩

/-- Settles O29: with no inversion the frame's bits are the values at the table's positions. -/
theorem standardWiringIsTheEnumeratedTable : Obligations.StandardWiringIsTheEnumeratedTable := by
  intro o ho
  rw [Config.standard, assemble_signals, BitVec.xor_zero, valueToBits_bitsToValue (n := 24) _ rfl, List.map_map]
  simp only [Function.comp_def, OutputSnapshot.some_getD_get ho]
  rfl

end Sys2Proof
end

section
/-! The pin primitives and the traces made of them (40_pin_primitives.md, R110 to R116): what a write does to the whole
state, which pins are the block's, and what a bit cell, a latch pulse and a direct write do. -/

namespace Sys2Proof.Machine

/-! ### The pin space -/

/-- The pins the block writes are the pins of its five lines (R50). -/
theorem pinUse_eq_output_iff {p : Nat} {x : Line} : pinUse p = .output x ↔ x.pin = p := by
  constructor
  · intro h
    unfold pinUse at h
    split at h <;> cases h <;> rfl
  · rintro rfl
    cases x <;> rfl

/-- The pins the block reads are the pins of its twelve input signals (R50, R51). -/
theorem pinUse_eq_input_iff {p : Nat} {n : InSignal} : pinUse p = .input n ↔ inPin n = p := by
  constructor
  · intro h
    unfold pinUse at h
    split at h <;> cases h <;> rfl
  · rintro rfl
    cases n <;> rfl

/-- The five lines are on pins 14 to 18 (R50). -/
theorem Line.pin_bounds (x : Line) : 14 ≤ x.pin ∧ x.pin ≤ 18 := by
  cases x <;> decide

/-- The twelve input signals are on pins 2 to 13 (R51). -/
theorem inPin_bounds (n : InSignal) : 2 ≤ inPin n ∧ inPin n ≤ 13 := by
  have := n.bit_lt
  unfold inPin
  omega

theorem writePin_pin (x : Line) (v : Bit) (s : State) : writePin x.pin v s = .next (pinWrite x v s) := by
  rw [writePin, pinUse_eq_output_iff.mpr rfl]

/-- A write to a pin of no line is refused (R110). -/
theorem writePin_refused {p : Nat} (h : ∀ x : Line, x.pin ≠ p) (v : Bit) (s : State) :
    writePin p v s = .refused (.notABlockPin p) := by
  cases hp : pinUse p with
  | output x => exact absurd (pinUse_eq_output_iff.mp hp) (h x)
  | input _ | reserved | foreign => rw [writePin, hp]

theorem readPin_inPin (n : InSignal) (s : State) : readPin (inPin n) s = .ok (pinRead n s) := by
  rw [readPin, pinUse_eq_input_iff.mpr rfl]

/-- A read of a pin of no input signal is refused (R113). -/
theorem readPin_refused {p : Nat} (h : ∀ n : InSignal, inPin n ≠ p) (s : State) :
    readPin p s = .error (.notABlockPin p) := by
  cases hp : pinUse p with
  | input n => exact absurd (pinUse_eq_input_iff.mp hp) (h n)
  | output _ | reserved | foreign => rw [readPin, hp]

/-! ### Reads -/

/-- A read lets its moment pass: the levels it leaves are those of the moments after it (R113). -/
theorem levelsAt_pinRead (n : InSignal) (s : State) (k : Nat) :
    levelsAt (pinRead n s).2 k = levelsAt s (k + 1) := by
  simp only [levelsAt, pinRead, List.getElem?_tail, Nat.add_right_comm s.reads 1 k, Nat.add_assoc]

/-! ### The traces of the pin primitives -/

/-- A bit cell begun with SCK high has no rising edge: its bit reaches DATA only (R114). -/
theorem performAll_shiftBit_of_high (b : Bit) {s : State} (h : s.P.sck = true) :
    performAll (shiftBit b) s = { s with P := { s.P with data := b, sck := false } } := by
  obtain ⟨⟨_, sck, _⟩⟩ := s
  cases h
  rfl

theorem rck_notMem_cells (v : Bit) (bits : List Bit) : MicroOp.w .rck v ∉ bits.flatMap shiftBit := by
  simp [shiftBit]

theorem rck_notMem_directWrite (v c d : Bit) : MicroOp.w .rck v ∉ directWrite c d := by
  simp [directWrite]

theorem rck_notMem_sampleTrace (v : Bit) : MicroOp.w .rck v ∉ sampleTrace := by
  simp [sampleTrace]

/-! ### The statements on the pin primitives -/

/-- Settles O13: a write touches lines, stages and latches at most (`perform_frame`), each as its own lemma says. -/
theorem pinWriteEffect : Obligations.PinWriteEffect := by
  intro x v s
  have hframe := perform_frame (.w x v) s
  simp only [perform, pinWrite_I, pinWrite_inputs, pinWrite_reads] at hframe
  rw [hframe, pinWrite_P, pinWrite_S, pinWrite_L]

/-- Settles O16: the signal's pin is the one it is read from (`readPin_inPin`), and the read lets one moment pass
(`levelsAt_pinRead`). -/
theorem pinReadReturnsLevel : Obligations.PinReadReturnsLevel := by
  intro n s
  obtain ⟨hlo, hhi⟩ := inPin_bounds n
  have hbit : inPin n - 2 = n.bit := Nat.add_sub_cancel_left 2 n.bit
  refine ⟨readPin_inPin n s, hlo, hhi, ?_, rfl, levelsAt_pinRead n s⟩
  rw [hbit, pinRead]

/-- Settles O17: a pin outside 14 to 18 is no line's, one outside 2 to 13 no input signal's. -/
theorem foreignPinsAreRefused : Obligations.ForeignPinsAreRefused := by
  refine ⟨fun p v s hp => writePin_refused (fun x => ?_) v s, writePin_pin,
    fun p s hp => readPin_refused (fun n => ?_) s⟩
  · have := x.pin_bounds
    omega
  · have := inPin_bounds n
    omega

/-- Settles O18: the cell from SCK low and the cell from SCK high. -/
theorem bitCellEffect : Obligations.BitCellEffect := fun b _ =>
  ⟨performAll_shiftBit b, performAll_shiftBit_of_high b⟩

/-- Settles O19: the pulse's effect, and no write of RCK in the parts that are no latch pulse. -/
theorem latchPulseEffect : Obligations.LatchPulseEffect :=
  ⟨fun _ => performAll_latchPulse, rfl, fun _ => rfl, rck_notMem_cells, rck_notMem_directWrite, rck_notMem_sampleTrace,
    rfl, fun _ _ _ => rfl⟩

/-- Settles O20: the two writes in order (`performAll_directWrite`), the first of which reaches CAL only. -/
theorem directWriteEffect : Obligations.DirectWriteEffect := fun c d s =>
  ⟨rfl, performAll_directWrite c d s, rfl, rfl⟩

end Sys2Proof.Machine
end

section
/-! How many pin accesses of each kind the traces are made of (R137, R156, R177): counts that add up as traces are
appended. -/

namespace Sys2Proof.Machine

/-- The accesses of a trace of `cells` bit cells, `pulses` latch pulses and `directs` direct writes, line by line and
edge by edge; it reads nothing (R114, R115, R116). -/
def WriteCounts (cells pulses directs : Nat) (ms : List MicroOp) : Prop :=
  ms.length = 3 * cells + 2 * pulses + 2 * directs ∧ writesTo .data ms = cells ∧
  ms.count (.w .sck true) = cells ∧ ms.count (.w .sck false) = cells ∧
  ms.count (.w .rck true) = pulses ∧ ms.count (.w .rck false) = pulses ∧
  writesTo .cal ms = directs ∧ writesTo .strobeOut ms = directs ∧ ∀ n, .rd n ∉ ms

theorem WriteCounts.append {c p d c' p' d' : Nat} {ms ms' : List MicroOp} (h : WriteCounts c p d ms)
    (h' : WriteCounts c' p' d' ms') : WriteCounts (c + c') (p + p') (d + d') (ms ++ ms') := by
  obtain ⟨hlen, hdata, hsck1, hsck0, hrck1, hrck0, hcal, hstrobe, hrd⟩ := h
  obtain ⟨hlen', hdata', hsck1', hsck0', hrck1', hrck0', hcal', hstrobe', hrd'⟩ := h'
  refine ⟨?_, by simp [*]⟩
  rw [List.length_append]
  omega

theorem writeCounts_shiftBit (b : Bit) : WriteCounts 1 0 0 (shiftBit b) := by
  refine ⟨rfl, ?_, rfl, rfl, rfl, rfl, rfl, rfl, by simp [shiftBit]⟩
  cases b <;> rfl

theorem writeCounts_cells (bits : List Bit) : WriteCounts bits.length 0 0 (bits.flatMap shiftBit) := by
  induction bits with
  | nil => exact ⟨rfl, rfl, rfl, rfl, rfl, rfl, rfl, rfl, by simp⟩
  | cons b bits ih =>
    rw [List.flatMap_cons, List.length_cons, Nat.add_comm]
    exact (writeCounts_shiftBit b).append ih

theorem writeCounts_latchPulse : WriteCounts 0 1 0 latchPulse :=
  ⟨rfl, rfl, rfl, rfl, rfl, rfl, rfl, rfl, by simp [latchPulse]⟩

theorem writeCounts_directWrite (c d : Bit) : WriteCounts 0 0 1 (directWrite c d) := by
  refine ⟨rfl, rfl, rfl, rfl, rfl, rfl, ?_, ?_, by simp [directWrite]⟩
  · cases c <;> rfl
  · cases d <;> rfl

theorem writeCounts_shiftOutTrace (bits : List Bit) : WriteCounts bits.length 1 0 (shiftOutTrace bits) :=
  (writeCounts_cells bits).append writeCounts_latchPulse

theorem writeCounts_clearTrace : WriteCounts 24 1 1 clearTrace :=
  (writeCounts_shiftOutTrace _).append (writeCounts_directWrite false false)

theorem writeCounts_composeTrace (v : Frame) (c d : Bit) : WriteCounts 48 2 2 (composeTrace v c d) := by
  have hshift : WriteCounts 24 1 0 (shiftOutTrace (valueToBits v)) := by
    simpa using writeCounts_shiftOutTrace (valueToBits v)
  exact (writeCounts_clearTrace.append hshift).append (writeCounts_directWrite c d)

theorem length_shiftOutTrace (bits : List Bit) : (shiftOutTrace bits).length = 3 * bits.length + 2 :=
  (writeCounts_shiftOutTrace bits).1

theorem length_clearTrace : clearTrace.length = 76 := writeCounts_clearTrace.1

theorem length_composeTrace (v : Frame) (c d : Bit) : (composeTrace v c d).length = 152 :=
  (writeCounts_composeTrace v c d).1

/-- Settles O45: SAMPLE is twelve reads; the other traces are made of bit cells, latch pulses and direct writes, whose
accesses add up (`WriteCounts.append`). -/
theorem operationAccessCounts : Obligations.OperationAccessCounts := by
  refine ⟨⟨rfl, fun m hm => ?_⟩, fun bits hb => ?_, writeCounts_clearTrace, writeCounts_composeTrace⟩
  · obtain ⟨n, -, rfl⟩ := List.mem_map.mp hm
    exact ⟨n, rfl⟩
  · have hcounts := writeCounts_shiftOutTrace bits
    rw [hb] at hcounts
    exact hcounts

end Sys2Proof.Machine
end

section
/-! The Shift-Register Driver (41_shift_driver.md, R130 to R138): what part of a trace leaves in the block, and the
state in which SHIFT_OUT and CLEAR end. -/

namespace Sys2Proof

/-- The first `j` bits of a number, shifted in, stand below the old bits moved up by `j` (R132). -/
theorem foldl_shiftIn_take_valueToBits {n : Nat} (v w : BitVec n) {j : Nat} (hj : j ≤ n) :
    ((valueToBits v).take j).foldl shiftIn w = (w <<< j) ||| (v >>> (n - j)) := by
  have hlen : ((valueToBits v).take j).length = j := by simp [hj]
  apply BitVec.eq_of_getLsbD_eq
  intro i hi
  rw [getLsbD_foldl_shiftIn, hlen, BitVec.getLsbD_or, BitVec.getLsbD_shiftLeft, BitVec.getLsbD_ushiftRight]
  by_cases hij : i < j
  · have hget : ((valueToBits v).take j).getD (j - 1 - i) false = v.getLsbD (n - j + i) := by
      rw [List.getD, List.getElem?_take_of_lt (by omega), ← List.getD, getD_valueToBits v _ (by omega)]
      congr 1
      omega
    rw [if_pos hij, hget]
    simp [hi, hij]
  · simp [hi, hij, BitVec.getLsbD_of_ge v (n - j + i) (by omega)]

end Sys2Proof

namespace Sys2Proof.Machine

/-! ### What a trace leaves alone -/

/-- Whatever each of its accesses keeps, a trace keeps. -/
theorem performAll_keeps_of_forall_mem {α : Type} (f : State → α) {ms : List MicroOp}
    (h : ∀ m ∈ ms, ∀ s, f (perform m s) = f s) (s : State) : f (performAll ms s) = f s := by
  induction ms generalizing s with
  | nil => rfl
  | cons m ms ih =>
    rw [performAll_cons, ih fun m' hm' => h m' (List.mem_cons_of_mem m hm'), h m List.mem_cons_self]

theorem Lines.get_set_of_ne {x y : Line} (h : y ≠ x) (v : Bit) (P : Lines) : (P.set y v).get x = P.get x := by
  cases y <;> cases x <;> simp [Lines.get] at h ⊢

/-- A trace that does not write a line keeps its level (R110). -/
theorem performAll_get_of_notMem {x : Line} {ms : List MicroOp} (h : ∀ v, .w x v ∉ ms) (s : State) :
    (performAll ms s).P.get x = s.P.get x := by
  refine performAll_keeps_of_forall_mem (fun s => s.P.get x) (fun m hm s => ?_) s
  cases m with
  | rd n => rfl
  | w y v =>
    have hne : y ≠ x := by
      rintro rfl
      exact h v hm
    simp only [perform, pinWrite_P, Lines.get_set_of_ne hne]

/-- A trace that does not write SCK keeps the stages (R111). -/
theorem performAll_S_of_notMem {ms : List MicroOp} (h : ∀ v, .w .sck v ∉ ms) (s : State) :
    (performAll ms s).S = s.S := by
  refine performAll_keeps_of_forall_mem State.S (fun m hm s => ?_) s
  cases m with
  | rd n => rfl
  | w x v =>
    rw [perform, pinWrite_S, if_neg]
    rintro ⟨rfl, -⟩
    exact h v hm

/-- A trace that does not write RCK keeps the latches (R112). -/
theorem performAll_L_of_notMem {ms : List MicroOp} (h : ∀ v, .w .rck v ∉ ms) (s : State) :
    (performAll ms s).L = s.L := by
  refine performAll_keeps_of_forall_mem State.L (fun m hm s => ?_) s
  cases m with
  | rd n => rfl
  | w x v =>
    rw [perform, pinWrite_L, if_neg]
    rintro ⟨rfl, -⟩
    exact h v hm

/-! ### Inside the traces of SHIFT_OUT and CLEAR -/

/-- After `n` writes of bit cells as many bits are in as there have been rising edges of SCK, the second write of each
cell (R114). -/
theorem performAll_take_cells_S (bits : List Bit) {s : State} (hs : s.P.sck = false) (n : Nat) :
    (performAll ((bits.flatMap shiftBit).take n) s).S = (bits.take ((n + 1) / 3)).foldl shiftIn s.S := by
  induction bits generalizing s n with
  | nil => simp
  | cons b bits ih =>
    match n with
    | 0 => rfl
    | 1 => rfl
    | 2 => simp [shiftBit, perform, pinWrite_S, hs]
    | n + 3 =>
      have hedges : (n + 3 + 1) / 3 = (n + 1) / 3 + 1 := by omega
      have htake : ((b :: bits).flatMap shiftBit).take (n + 3) = shiftBit b ++ (bits.flatMap shiftBit).take n := rfl
      rw [htake, performAll_append, performAll_shiftBit b hs, ih (by exact hs), hedges, List.take_succ_cons,
        List.foldl_cons]

/-- The latch pulse adds no bit to those the cells have shifted in (R115, R132). -/
theorem performAll_take_shiftOutTrace_S (bits : List Bit) {s : State} (hs : s.P.sck = false) (n : Nat) :
    (performAll ((shiftOutTrace bits).take n) s).S = (bits.take ((n + 1) / 3)).foldl shiftIn s.S := by
  have hpulse (v : Bit) (k : Nat) : .w .sck v ∉ latchPulse.take k :=
    fun h => by simpa [latchPulse] using List.mem_of_mem_take h
  rw [shiftOutTrace, List.take_append, performAll_append, performAll_S_of_notMem fun v => hpulse v _,
    performAll_take_cells_S bits hs]

/-- The latches take the stages at the first write of the latch pulse (R112, R115). -/
theorem performAll_take_latchPulse_L {s : State} (h : s.P.rck = false) (k : Nat) :
    (performAll (latchPulse.take (k + 1)) s).L = s.S := by
  have hrise : (perform (.w .rck true) s).L = s.S := by simp [perform, pinWrite_L, h]
  cases k with
  | zero => exact hrise
  | succ k => rw [List.take_of_length_le (by simp [latchPulse]), performAll_latchPulse h]

/-- The latches keep their old value through the bit cells and hold the shifted bits from the latch edge on (R130). -/
theorem performAll_take_shiftOutTrace_L (bits : List Bit) {s : State} (hs : s.P.sck = false) (hr : s.P.rck = false)
    (n : Nat) :
    (performAll ((shiftOutTrace bits).take (n + 1)) s).L =
      if n < 3 * bits.length then s.L else bits.foldl shiftIn s.S := by
  have hlen := length_cells bits
  by_cases hn : n < 3 * bits.length
  · rw [if_pos hn, shiftOutTrace, List.take_append_of_le_length (by omega)]
    exact performAll_L_of_notMem (fun v h => rck_notMem_cells v bits (List.mem_of_mem_take h)) s
  · obtain ⟨k, rfl⟩ := Nat.exists_eq_add_of_le (Nat.le_of_not_lt hn)
    rw [if_neg hn, shiftOutTrace, Nat.add_assoc, ← hlen, List.take_length_add_append, performAll_append,
      performAll_cells bits hs, performAll_take_latchPulse_L (by exact hr)]

theorem cal_notMem_shiftOutTrace (v : Bit) (bits : List Bit) : MicroOp.w .cal v ∉ shiftOutTrace bits := by
  simp [shiftOutTrace, shiftBit, latchPulse]

theorem strobeOut_notMem_shiftOutTrace (v : Bit) (bits : List Bit) : MicroOp.w .strobeOut v ∉ shiftOutTrace bits := by
  simp [shiftOutTrace, shiftBit, latchPulse]

/-- The output vector inside SHIFT_OUT of a whole frame: the old one until the latch edge, then the frame beside the
same direct outputs (R132). -/
theorem outputVector_take_shiftOutTrace {bits : List Bit} (hb : bits.length = 24) {s : State} (hs : s.P.sck = false)
    (hr : s.P.rck = false) (n : Nat) :
    outputVector (performAll ((shiftOutTrace bits).take (n + 1)) s) =
      (if n < 72 then s.L else bitsToValue 24 bits, s.P.cal, s.P.strobeOut) := by
  have hL := performAll_take_shiftOutTrace_L bits hs hr n
  rw [hb, foldl_shiftIn_full bits s.S hb] at hL
  have hcal : (performAll ((shiftOutTrace bits).take (n + 1)) s).P.cal = s.P.cal :=
    performAll_get_of_notMem (x := .cal) (fun v h => cal_notMem_shiftOutTrace v bits (List.mem_of_mem_take h)) s
  have hstrobe : (performAll ((shiftOutTrace bits).take (n + 1)) s).P.strobeOut = s.P.strobeOut :=
    performAll_get_of_notMem (x := .strobeOut)
      (fun v h => strobeOut_notMem_shiftOutTrace v bits (List.mem_of_mem_take h)) s
  rw [outputVector, hL, hcal, hstrobe]

/-- The output vector inside a direct write: CAL first, then both (R116). -/
theorem outputVector_take_directWrite (c d : Bit) (s : State) (k : Nat) :
    outputVector (performAll ((directWrite c d).take (k + 1)) s) = (s.L, c, if k = 0 then s.P.strobeOut else d) := by
  cases k with
  | zero => rfl
  | succ k =>
    rw [List.take_of_length_le (by simp [directWrite]), performAll_directWrite, outputVector,
      if_neg k.succ_ne_zero]

/-- The output vector inside CLEAR: old, then blank register outputs, then CAL low, then STROBE_OUT low (R135). -/
theorem outputVector_take_clearTrace {s : State} (hs : s.P.sck = false) (hr : s.P.rck = false) (n : Nat) :
    outputVector (performAll (clearTrace.take (n + 1)) s) =
      if n < 72 then (s.L, s.P.cal, s.P.strobeOut)
      else if n < 74 then (0#24, s.P.cal, s.P.strobeOut)
      else if n < 75 then (0#24, false, s.P.strobeOut)
      else (0#24, false, false) := by
  have hb : (valueToBits 0#24).length = 24 := length_valueToBits _
  have hlen : (shiftOutTrace (valueToBits 0#24)).length = 74 := by rw [length_shiftOutTrace, hb]
  by_cases hn : n < 74
  · rw [clearTrace, List.take_append_of_le_length (by omega), outputVector_take_shiftOutTrace hb hs hr,
      bitsToValue_valueToBits, if_pos hn]
    split <;> rfl
  · obtain ⟨k, rfl⟩ := Nat.exists_eq_add_of_le (Nat.le_of_not_lt hn)
    have htake : clearTrace.take (74 + k + 1) =
        shiftOutTrace (valueToBits 0#24) ++ (directWrite false false).take (k + 1) := by
      rw [clearTrace, Nat.add_assoc, ← hlen, List.take_length_add_append]
    have hpast : ¬ 74 + k < 72 := by omega
    rw [htake, performAll_append, performAll_shiftOutTrace_full hb hs hr, bitsToValue_valueToBits,
      outputVector_take_directWrite]
    simp only [hpast, hn, if_false]
    cases k with
    | zero => rfl
    | succ k => rw [if_neg (by omega), if_neg (by omega)]

/-! ### The end of an operation -/

/-- When the last access of an operation has been performed, its expansion's effect stands, and the boot CLEAR has ended
phase RESET (R27). -/
theorem settle_load_nil (b : Bool) {s : State} (hq : s.seq = []) :
    settle (load b [] s) = { s with phase := if b then .running else s.phase, booting := false } := by
  rw [settle_eq]
  simp [load, hq]

/-- An operation that loads the expansion `ms` leaves all but the first access pending and, when these have been
performed, ends with the expansion's effect (R27, R57). -/
theorem start_completes {s : State} (b : Bool) {ms : List MicroOp} (hl : Live s) (hq : s.seq = []) (hn : ms ≠ []) :
    ∃ t, start b ms s = .next t ∧ t.seq.length = ms.length - 1 ∧
      run (ms.length - 1) t =
        .next { performAll ms s with phase := if b then .running else s.phase, booting := false } := by
  refine ⟨_, start_next b ms s, ?_, ?_⟩
  · obtain ⟨m, rest, rfl⟩ := List.exists_cons_of_ne_nil hn
    rw [advance_cons rfl, settle_seq, withSeq_seq, List.length_cons, Nat.add_sub_cancel]
  · rw [start_complete b ms hl hn, settle_load_nil b ((performAll_seq ms s).trans hq), performAll_phase]

/-- The state in which CLEAR ends (R135). -/
def cleared (s : State) : State :=
  { s with
    P := { data := false, sck := false, rck := false, cal := false, strobeOut := false }
    S := 0x000000#24
    L := 0x000000#24
    phase := .running
    booting := false }

/-- Clearing a cleared block changes nothing (R136). -/
theorem cleared_cleared (s : State) : cleared (cleared s) = cleared s := rfl

theorem cleared_blanked (s : State) : Blanked (cleared s) := ⟨rfl, rfl, rfl⟩

theorem cleared_ready {s : State} (h : Ready s) : Ready (cleared s) := by
  obtain ⟨hl, -, -, hq⟩ := h
  exact ⟨hl, rfl, rfl, hq⟩

/-- CLEAR performs its 76 writes and ends in the cleared state; phase RESET, if it was that, is over (R134, R135). -/
theorem clear_completes {s : State} (h : Ready s) :
    ∃ t, exec .clear s = .next t ∧ t.seq.length = 75 ∧ run 75 t = .next (cleared s) := by
  obtain ⟨hl, hsck, hrck, hq⟩ := h
  have hphase : (if s.phase == .reset then Phase.running else s.phase) = .running := by
    cases s.phase <;> rfl
  rw [exec_clear_eq_start hl hq]
  have hend := start_completes (s.phase == .reset) hl hq clearTrace_ne_nil
  rwa [length_clearTrace, performAll_clearTrace hsck hrck, hphase] at hend

/-! ### The statements on the Shift-Register Driver -/

/-- Settles O21: the operation runs to the end of its trace (`start_completes`), whose effect is
`performAll_shiftOutTrace_full`. -/
theorem shiftOutResult : Obligations.ShiftOutResult := by
  rintro bits s ⟨hl, hsck, hrck, hq⟩ hb
  obtain ⟨t, ht, -, hrun⟩ := start_completes false hl hq (shiftOutTrace_ne_nil bits)
  rw [length_shiftOutTrace, hb, performAll_shiftOutTrace_full hb hsck hrck] at hrun
  exact ⟨t, (exec_shiftOut_eq_start hl hq hb).trans ht, hrun⟩

/-- Settles O25: the check on the length comes before anything is loaded. -/
theorem wrongFrameLengthFaults : Obligations.WrongFrameLengthFaults := by
  intro bits s hl hq hb
  simp only [exec, execShiftOut, whenIdle_ready hl hq, if_neg hb, raiseFault, hq]

/-- Settles O22: the word decodes as its encoder says; SHIFT_OUT performs R130's trace access by access
(`performsTrace_of_start`), inside which the latches change at the latch edge (`performAll_take_shiftOutTrace_L`); it
ends as O21 says, and another length faults as O25 says. -/
theorem shiftOutPerformsItsTrace : Obligations.ShiftOutPerformsItsTrace := by
  refine ⟨fun v => ?word, fun v s h => ?trace, fun bits s h hb => ?length⟩
  case word =>
    have hdecode := decodeOfEncode (.shiftOut (valueToBits v)) (beq_iff_eq.mpr (length_valueToBits v))
    rwa [encode, bitsToValue_valueToBits] at hdecode
  case trace =>
    have hb : (valueToBits v).length = 24 := length_valueToBits v
    obtain ⟨t, ht, hrun⟩ := shiftOutResult (valueToBits v) s h hb
    obtain ⟨hl, hsck, hrck, hq⟩ := h
    have htrace := performsTrace_of_start hl (exec_shiftOut_eq_start hl hq hb)
    rw [← frameTrace_eq] at htrace
    obtain ⟨t', ht', hobs⟩ := htrace
    obtain rfl : t = t' := Host.Outcome.next.inj (ht.symm.trans ht')
    rw [bitsToValue_valueToBits] at hrun
    refine ⟨t, ht, fun n hn => ?_, _, hrun, ⟨hsck, hrck, hq⟩, rfl, rfl, rfl⟩
    obtain ⟨u, hu, hP, hS, hL, -⟩ := hobs n hn
    refine ⟨u, hu, ⟨frameTrace v, _, rfl, rfl, hP, hS, hL⟩, ?_⟩
    rw [hL, frameTrace_eq, performAll_take_shiftOutTrace_L _ hsck hrck, foldl_shiftIn_full _ _ hb,
      bitsToValue_valueToBits, hb]
  case length =>
    obtain ⟨hl, -, -, hq⟩ := h
    exact ⟨_, wrongFrameLengthFaults bits s hl hq hb, rfl⟩

/-- Settles O23: the latches hold the number of the sequence (O21), and its bits are the sequence. -/
theorem readbackGivesTheFrame : Obligations.ReadbackGivesTheFrame := by
  intro bits s h hb
  obtain ⟨t, ht, hrun⟩ := shiftOutResult bits s h hb
  exact ⟨t, _, ht, hrun, valueToBits_bitsToValue bits hb⟩

/-- Settles O24: every state on the way is that of a part of the trace, in which `performAll_take_shiftOutTrace_S` gives
the stages and `outputVector_take_shiftOutTrace` the outputs. -/
theorem stateInsideShiftOut : Obligations.StateInsideShiftOut := by
  rintro v s ⟨hl, hsck, hrck, hq⟩
  have hb : (valueToBits v).length = 24 := length_valueToBits v
  obtain ⟨t, ht, hobs⟩ := performsTrace_of_start hl (exec_shiftOut_eq_start hl hq hb)
  refine ⟨t, ht, fun n hn => ?_⟩
  obtain ⟨u, hu, hP, hS, hL, -⟩ := hobs n (by rw [length_shiftOutTrace, hb]; exact hn)
  refine ⟨u, hu, ?_, ?_⟩
  · rw [outputVector, hP, hL, ← outputVector, outputVector_take_shiftOutTrace hb hsck hrck, bitsToValue_valueToBits]
  · rintro j rfl
    have htake : (valueToBits v).take ((n + 2) / 3) = (valueToBits v).take (min 24 ((n + 2) / 3)) := by
      rw [List.take_eq_take_min, hb, Nat.min_comm]
    rw [hS, performAll_take_shiftOutTrace_S _ hsck, htake, foldl_shiftIn_take_valueToBits v _ (Nat.min_le_left _ _)]

/-- Settles O26: `clear_completes`. -/
theorem clearResult : Obligations.ClearResult := by
  intro s h
  obtain ⟨t, ht, -, hrun⟩ := clear_completes h
  exact ⟨t, ht, hrun⟩

/-- Settles O27: CLEAR ends in a state in which it can begin (`cleared_ready`) and which is already cleared
(`cleared_cleared`). -/
theorem clearIsIdempotent : Obligations.ClearIsIdempotent := by
  intro s h
  obtain ⟨t, ht, -, hrun⟩ := clear_completes h
  obtain ⟨t', ht', hlen', hrun'⟩ := clear_completes (cleared_ready h)
  rw [cleared_cleared] at hrun'
  exact ⟨t, cleared s, t', ht, hrun, cleared_blanked s, cleared_ready h, ht', hlen', hrun'⟩

/-- Settles O28: every state on the way is that of a part of the trace, whose outputs `outputVector_take_clearTrace`
gives. -/
theorem outputsSeenDuringClear : Obligations.OutputsSeenDuringClear := by
  rintro s ⟨hl, hsck, hrck, hq⟩
  obtain ⟨t, ht, hobs⟩ := performsTrace_of_start hl (exec_clear_eq_start hl hq)
  refine ⟨t, ht, fun n hn => ?_⟩
  obtain ⟨u, hu, hP, -, hL, -⟩ := hobs n (length_clearTrace ▸ hn)
  refine ⟨u, hu, ?_⟩
  rw [outputVector, hP, hL, ← outputVector, outputVector_take_clearTrace hsck hrck]

end Sys2Proof.Machine
end

section
/-! The Output Composer (42_output_composer.md, R150 to R157): where a wired signal stands in the assembled frame, what
an observer sees inside COMPOSE, and the state in which it ends. -/

namespace Sys2Proof

open Machine

/-! ### ASSEMBLE, signal by signal -/

/-- In a table that passes the check every frame-bound signal has a position, and ASSEMBLE puts its value there,
inverted where the mask says so (R24, R82, R85). -/
theorem exists_position_getLsbD_assemble {c : Config} (hc : Config.Valid c) {x : OutSignal} (hx : x.frameBound = true)
    (o : OutputSnapshot) :
    ∃ p, c.position x = some p ∧
      (assemble c o).getLsbD p = ((o.get x).getD false ^^ c.polarityMask.getLsbD p) := by
  obtain ⟨hlen, -, hall⟩ := Wiring.defect_eq_none_iff.mp hc
  have hmem := hall x hx
  have hget := List.getElem?_idxOf hmem
  have hidx := List.idxOf_lt_length_of_mem hmem
  rw [hlen] at hidx
  generalize hk : c.wiring.idxOf (.signal x) = k at hget hidx
  have hbit : (c.wiring.map (entryBit o)).getD (24 - 1 - (23 - k)) false = (o.get x).getD false := by
    rw [show 24 - 1 - (23 - k) = k by omega, List.getD, List.getElem?_map, hget]
    rfl
  refine ⟨23 - k, by rw [Config.position, if_pos (List.contains_iff_mem.mpr hmem), hk], ?_⟩
  rw [assemble, BitVec.getLsbD_xor, getLsbD_bitsToValue, List.length_map, hlen, hbit]
  simp [show 23 - k < 24 by omega]

/-- With every signal at 0 the frame is the mask (R85, R153). -/
theorem assemble_zero {c : Config} (hc : Config.Valid c) : assemble c (.ofFn fun _ => some false) = c.polarityMask := by
  obtain ⟨_, mask⟩ := c
  obtain ⟨xs, rfl, hperm⟩ := Wiring.defect_eq_none_iff_perm.mp hc
  have hzero : bitsToValue 24 (List.replicate 24 false) = 0#24 := by decide
  rw [assemble_signals]
  simp only [OutputSnapshot.get_ofFn, Option.getD_some, List.map_const', hperm.length_eq, Wiring.length_enumerated,
    hzero, BitVec.zero_xor]

/-- A defined snapshot has its two direct values (R150). -/
theorem OutputSnapshot.exists_directs {o : OutputSnapshot} (ho : o.allDefined = true) :
    ∃ c d, o.cal = some c ∧ o.strobeOut = some d := by
  have hdef := o.allDefined_iff.mp ho
  obtain ⟨c, hc⟩ := Option.isSome_iff_exists.mp (hdef .cal)
  obtain ⟨d, hd⟩ := Option.isSome_iff_exists.mp (hdef .strobeOut)
  exact ⟨c, d, hc, hd⟩

end Sys2Proof

namespace Sys2Proof.Machine

/-! ### Inside COMPOSE -/

/-- Past the first of two traces, the second goes on from where the first ended. -/
theorem performAll_take_length_add_append (ms ms' : List MicroOp) (k : Nat) (s : State) :
    performAll ((ms ++ ms').take (ms.length + k)) s = performAll (ms'.take k) (performAll ms s) := by
  rw [List.take_length_add_append, performAll_append]

/-- The output vector inside COMPOSE: that of CLEAR, then blank until the second latch edge, then the new frame, then
each direct output in turn (R152). -/
theorem outputVector_take_composeTrace (v : Frame) (c d : Bit) {s : State} (hs : s.P.sck = false)
    (hr : s.P.rck = false) (n : Nat) :
    outputVector (performAll ((composeTrace v c d).take (n + 1)) s) =
      if n < 72 then (s.L, s.P.cal, s.P.strobeOut)
      else if n < 74 then (0#24, s.P.cal, s.P.strobeOut)
      else if n < 75 then (0#24, false, s.P.strobeOut)
      else if n < 148 then (0#24, false, false)
      else if n < 150 then (v, false, false)
      else if n < 151 then (v, c, false)
      else (v, c, d) := by
  have hb : (valueToBits v).length = 24 := length_valueToBits v
  have hlen : (shiftOutTrace (valueToBits v)).length = 74 := by rw [length_shiftOutTrace, hb]
  have hclear := length_clearTrace
  rw [composeTrace, List.append_assoc]
  by_cases h76 : n < 76
  · rw [List.take_append_of_le_length (by omega), outputVector_take_clearTrace hs hr, if_pos (show n < 148 by omega)]
  obtain ⟨k, rfl⟩ := Nat.exists_eq_add_of_le (Nat.le_of_not_lt h76)
  rw [if_neg (by omega), if_neg (by omega), if_neg (by omega), Nat.add_assoc, ← hclear,
    performAll_take_length_add_append, performAll_clearTrace hs hr, hclear]
  by_cases h74 : k < 74
  · rw [List.take_append_of_le_length (by omega), outputVector_take_shiftOutTrace hb rfl rfl, bitsToValue_valueToBits,
      if_pos (show 76 + k < 150 by omega)]
    by_cases h72 : k < 72
    · rw [if_pos h72, if_pos (by omega)]
    · rw [if_neg h72, if_neg (by omega)]
  · obtain ⟨j, rfl⟩ := Nat.exists_eq_add_of_le (Nat.le_of_not_lt h74)
    rw [if_neg (by omega), if_neg (by omega), Nat.add_assoc, ← hlen, performAll_take_length_add_append,
      performAll_shiftOutTrace_full hb rfl rfl, bitsToValue_valueToBits, outputVector_take_directWrite, hlen]
    cases j with
    | zero => rfl
    | succ j => rw [if_neg (by omega), if_neg (by omega)]

/-! ### The end of COMPOSE -/

/-- The state in which COMPOSE of the frame `v` and the direct values `c` and `d` ends (R151). -/
def composed (v : Frame) (c d : Bit) (s : State) : State :=
  { s with
    P := { data := v.getLsbD 0, sck := false, rck := false, cal := c, strobeOut := d }
    S := v
    L := v
    booting := false }

/-- COMPOSE of a defined snapshot performs its 152 writes and ends in the composed state (R150, R151). -/
theorem compose_completes {o : OutputSnapshot} {c d : Bit} {s : State} (h : Ready s) (ho : o.allDefined = true)
    (hc : o.cal = some c) (hd : o.strobeOut = some d) :
    ∃ t, exec (.compose o) s = .next t ∧ run 151 t = .next (composed (assemble s.cfg o) c d s) := by
  obtain ⟨hl, hsck, hrck, hq⟩ := h
  obtain ⟨t, ht, -, hrun⟩ := start_completes false hl hq (composeTrace_ne_nil (assemble s.cfg o) c d)
  rw [length_composeTrace, performAll_composeTrace _ c d hsck hrck] at hrun
  exact ⟨t, (exec_compose_eq_start hl hq ho hc hd).trans ht, hrun⟩

/-- A frame-bound signal's line is the latch at its position (R24). -/
theorem outputLine_of_frameBound (s : State) {x : OutSignal} (hx : x.frameBound = true) :
    outputLine s x = (s.cfg.position x).map s.L.getLsbD := by
  obtain ⟨hcal, hstrobe⟩ := OutSignal.frameBound_iff.mp hx
  rw [outputLine] <;> assumption

/-- In the composed state every line shows its signal, by the wiring table or directly (R151; no inversion, D2). -/
theorem outputLine_composed {o : OutputSnapshot} {c d : Bit} {s : State} (hv : Config.Valid s.cfg)
    (hm : s.cfg.polarityMask = 0x000000#24) (ho : o.allDefined = true) (hc : o.cal = some c)
    (hd : o.strobeOut = some d) (x : OutSignal) :
    outputLine (composed (assemble s.cfg o) c d s) x = o.get x := by
  by_cases hx : x.frameBound = true
  · obtain ⟨p, hp, hbit⟩ := exists_position_getLsbD_assemble hv hx o
    rw [hm, BitVec.getLsbD_zero, Bool.xor_false] at hbit
    calc outputLine (composed (assemble s.cfg o) c d s) x
        = (s.cfg.position x).map (assemble s.cfg o).getLsbD := outputLine_of_frameBound _ hx
      _ = some ((o.get x).getD false) := by rw [hp, Option.map_some, hbit]
      _ = o.get x := OutputSnapshot.some_getD_get ho x
  · obtain rfl | rfl : x = .cal ∨ x = .strobeOut := by
      rw [OutSignal.frameBound_iff] at hx
      tauto
    · exact hc.symm
    · exact hd.symm

/-! ### COMPOSE in the Control Loop -/

/-- Between an ITERATE's two operations the Control Loop composes the oracle's answer (R172). -/
theorem step_loop_compose {s : State} (hl : Live s) (hq : s.seq = []) (hm : s.mode = .loop) (hp : s.phase = .running)
    (ht : s.turn = .compose) :
    step s = exec (.compose (consult s).1) { (consult s).2 with turn := .sample } := by
  rw [step_idle hl hq]
  simp only [takeOperation, hm, takeLoop, hp, ht]

/-! ### The statements on the Output Composer -/

/-- Settles O34: `compose_completes`, SCK and RCK being low as they were. -/
theorem composeResult : Obligations.ComposeResult := by
  intro o c d s h ho hc hd
  obtain ⟨t, ht, hrun⟩ := compose_completes h ho hc hd
  obtain ⟨-, hsck, hrck, -⟩ := h
  refine ⟨t, ht, ?_⟩
  simp only [hsck, hrck]
  exact hrun

/-- Settles O35: every state on the way is that of a part of the trace, whose outputs `outputVector_take_composeTrace`
gives. -/
theorem outputsSeenDuringCompose : Obligations.OutputsSeenDuringCompose := by
  rintro o c d s ⟨hl, hsck, hrck, hq⟩ ho hc hd
  obtain ⟨t, ht, hobs⟩ := performsTrace_of_start hl (exec_compose_eq_start hl hq ho hc hd)
  refine ⟨t, ht, fun n hn => ?_⟩
  obtain ⟨u, hu, hP, -, hL, -⟩ := hobs n (by rwa [length_composeTrace])
  refine ⟨u, hu, ?_⟩
  rw [outputVector, hP, hL, ← outputVector, outputVector_take_composeTrace _ c d hsck hrck]

/-- Settles O36: COMPOSE ends in the composed state, whose lines `outputLine_composed` gives. -/
theorem everyOutputLineShowsItsSignal : Obligations.EveryOutputLineShowsItsSignal := by
  intro o s h ho hm
  obtain ⟨c, d, hc, hd⟩ := OutputSnapshot.exists_directs ho
  obtain ⟨t, ht, hrun⟩ := compose_completes h ho hc hd
  exact ⟨t, _, ht, hrun, outputLine_composed h.1.valid hm ho hc hd⟩

/-- Settles O37: without inversion the frame of the all-zero snapshot is zero (`assemble_zero`), and so the composed
state has the lines, stages and latches of the cleared one. -/
theorem composeZeroEqualsClear : Obligations.ComposeZeroEqualsClear := by
  intro s h hm
  obtain ⟨t, ht, hrun⟩ := compose_completes (o := .ofFn fun _ => some false) h rfl rfl rfl
  obtain ⟨t', ht', -, hrun'⟩ := clear_completes h
  rw [assemble_zero h.1.valid, hm] at hrun
  exact ⟨t, _, t', _, ht, hrun, ht', hrun', rfl, rfl, rfl⟩

/-- Settles O38: the lines, stages and latches of the composed state are made of the frame and the direct values. -/
theorem composeLeavesNoResidue : Obligations.ComposeLeavesNoResidue := by
  intro o s s' h h' hcfg ho
  obtain ⟨c, d, hc, hd⟩ := OutputSnapshot.exists_directs ho
  obtain ⟨t, ht, hrun⟩ := compose_completes h ho hc hd
  obtain ⟨t', ht', hrun'⟩ := compose_completes h' ho hc hd
  rw [← hcfg] at hrun'
  exact ⟨t, _, t', _, ht, hrun, ht', hrun', rfl, rfl, rfl⟩

/-- Settles O39: the composed state of the frame that the enumerated table gives. -/
theorem composeSegASegF : Obligations.ComposeSegASegF := by
  intro s h hcfg
  have hframe : assemble .standard (.ofFn fun x => some (x = .segA || x = .segF)) = 0x030000#24 := by decide
  obtain ⟨t, ht, hrun⟩ := compose_completes (o := .ofFn fun x => some (x = .segA || x = .segF)) h rfl rfl rfl
  rw [hcfg, hframe] at hrun
  exact ⟨t, _, ht, hrun, rfl, rfl, rfl, rfl⟩

/-- Settles O40: the check finds the first undefined signal (`firstUndefined_eq_some`) before anything is loaded. -/
theorem undefinedOutputFaults : Obligations.UndefinedOutputFaults := by
  intro o x s hl hq hx hy
  simp only [exec, execCompose, whenIdle_ready hl hq, firstUndefined_eq_some o x hx hy, raiseFault, hq]

/-- Settles O44: the loop's next step is COMPOSE of the answer (`step_loop_compose`), which faults as O40 says, and a
latched fault stops the machine as O51 says. -/
theorem undefinedAnswerStopsTheLoop : Obligations.UndefinedAnswerStopsTheLoop := by
  rintro s x ⟨hl, -, -, hq⟩ hm hp ht hx hy
  have hstep := step_loop_compose hl hq hm hp ht
  rw [consult_snd, undefinedOutputFaults _ x _ (by exact hl) (by exact hq) hx hy] at hstep
  exact ⟨_, hstep, rfl, rfl, rfl, rfl, rfl, rfl, (faultStopsTheMachine _ _ rfl).2.2⟩

end Sys2Proof.Machine
end

section
/-! The Input Sampler and the Control Loop (43_sampler_and_loop.md, R170 to R176): what a run of reads leaves in the
snapshot in flight, and which operation the loop takes at a boundary. -/

namespace Sys2Proof

/-- Each input signal has an index of its own (R84). -/
theorem InSignal.bit_inj {n m : InSignal} (h : n.bit = m.bit) : n = m :=
  Option.some.inj (by rw [← n.getElem_all, ← m.getElem_all, h])

end Sys2Proof

namespace Sys2Proof.Machine

/-! ### Sequences of reads -/

/-- A read puts the live level into its signal's bit of the snapshot in flight (R113, R170). -/
theorem getLsbD_perform_rd (n : InSignal) (s : State) {j : Nat} (hj : j < 12) :
    (perform (.rd n) s).I.getLsbD j = if j = n.bit then (levelsAt s 0).getLsbD n.bit else s.I.getLsbD j :=
  getLsbD_setBit s.I n.bit j _ hj

/-- Reads that are not of signal `n` keep its bit of the snapshot in flight. -/
theorem getLsbD_performAll_reads_of_notMem {n : InSignal} {ns : List InSignal} (h : n ∉ ns) (s : State) :
    (performAll (ns.map .rd) s).I.getLsbD n.bit = s.I.getLsbD n.bit := by
  refine performAll_keeps_of_forall_mem (fun s => s.I.getLsbD n.bit) (fun m hm s => ?_) s
  obtain ⟨k, hk, rfl⟩ := List.mem_map.mp hm
  have hne : n.bit ≠ k.bit := fun hb => h (InSignal.bit_inj hb ▸ hk)
  exact (getLsbD_perform_rd k s n.bit_lt).trans (if_neg hne)

/-- Of distinct signals read in turn, the `k`-th one's bit is its level at the moment of the `k`-th read (R113,
R170). -/
theorem getLsbD_performAll_reads {ns : List InSignal} (hns : ns.Nodup) {k : Nat} {n : InSignal}
    (hk : ns[k]? = some n) (s : State) :
    (performAll (ns.map .rd) s).I.getLsbD n.bit = (levelsAt s k).getLsbD n.bit := by
  induction ns generalizing s k with
  | nil => simp at hk
  | cons m ns ih =>
    obtain ⟨hm, hns⟩ := List.nodup_cons.mp hns
    rw [List.map_cons, performAll_cons]
    cases k with
    | zero =>
      obtain rfl : m = n := by simpa using hk
      rw [getLsbD_performAll_reads_of_notMem hm, getLsbD_perform_rd m s m.bit_lt, if_pos rfl]
    | succ k =>
      rw [ih hns (by simpa using hk), ← levelsAt_pinRead m s k]
      rfl

/-- Each read lets one moment of the input levels pass and touches nothing else but the snapshot in flight (R113). -/
theorem performAll_reads_frame (ns : List InSignal) (s : State) :
    performAll (ns.map .rd) s = { s with
      I := (performAll (ns.map .rd) s).I
      inputs := s.inputs.drop ns.length
      reads := s.reads + ns.length } := by
  induction ns generalizing s with
  | nil => rfl
  | cons n ns ih =>
    rw [List.map_cons, performAll_cons, ih (perform (.rd n) s)]
    simp [perform, Nat.add_assoc, Nat.add_comm 1]

/-! ### Operations in progress -/

/-- No operation begins on a live machine with accesses pending (R176; log 9). -/
theorem exec_busy {s : State} (hl : Live s) (hq : s.seq ≠ []) (i : Instr) :
    exec i s = .refused .operationInProgress := by
  have hstop : s.stopped = none := hl
  obtain ⟨m, rest, hseq⟩ := List.exists_cons_of_ne_nil hq
  have hbusy (k) : whenIdle s k = .refused .operationInProgress := by simp only [whenIdle, hstop, hseq]
  cases i with
  | sample => exact hbusy _
  | clear => exact hbusy _
  | shiftOut bits => rw [exec, execShiftOut, hbusy]
  | compose o => rw [exec, execCompose, hbusy]

/-- Before the last access of an operation the rest is pending, and the phase has not moved (R27). -/
theorem start_observed_pending {s : State} (b : Bool) {ms : List MicroOp} (hl : Live s) {n : Nat}
    (hn : n + 1 < ms.length) :
    run n (advance (load b ms s)) = .next (load b (ms.drop (n + 1)) (performAll (ms.take (n + 1)) s)) := by
  have hpending : ms.drop (n + 1) ≠ [] := by simpa using hn
  rw [start_observed b ms hl n (by omega), settle_cons (by exact hpending)]

/-- Until its last write CLEAR leaves the phase as it was, and the outputs are those of the writes performed (R27,
R135). -/
theorem exec_clear_observed {s : State} (hl : Live s) (hq : s.seq = []) :
    ∃ t, exec .clear s = .next t ∧ ∀ n, n < 75 → ∃ u, run n t = .next u ∧ u.phase = s.phase ∧
      outputVector u = outputVector (performAll (clearTrace.take (n + 1)) s) := by
  refine ⟨_, exec_clear_eq_start hl hq, fun n hn => ?_⟩
  have hlt : n + 1 < clearTrace.length := length_clearTrace ▸ Nat.succ_lt_succ hn
  exact ⟨_, start_observed_pending _ hl hlt, performAll_phase _ s, rfl⟩

/-- A block built with a configuration that construction accepts can begin an operation, whatever the draws (R30). -/
theorem ready_resetWith {c : Config} (d : ResetDraws) (hc : Config.Valid c) : Ready (.resetWith c d) := by
  have hstop : (State.resetWith c d).stopped = (Wiring.defect c.wiring).map .wiringTable := rfl
  exact ⟨by rw [Live, hstop, hc, Option.map_none], rfl, rfl, rfl⟩

/-! ### The Control Loop at a boundary -/

/-- In phase RESET the Control Loop takes BOOT, which is one CLEAR (R92, R171). -/
theorem step_loop_boot {s : State} (hl : Live s) (hq : s.seq = []) (hm : s.mode = .loop) (hp : s.phase = .reset) :
    step s = exec .clear s := by
  rw [step_idle hl hq]
  simp only [takeOperation, hm, takeLoop, hp]

/-- An ITERATE begins with SAMPLE (R172). -/
theorem step_loop_sample {s : State} (hl : Live s) (hq : s.seq = []) (hm : s.mode = .loop) (hp : s.phase = .running)
    (ht : s.turn = .sample) : step s = exec .sample { s with turn := .compose } := by
  rw [step_idle hl hq]
  simp only [takeOperation, hm, takeLoop, hp, ht]

/-- The state in which SAMPLE leaves an ITERATE, the snapshot in flight being `i` (R170, R172). -/
def halfway (i : InputSnapshot) (s : State) : State :=
  { s with
    I := i
    inputs := s.inputs.drop 12
    reads := s.reads + 12
    booting := false
    turn := .compose }

/-- The state in which the Control Loop composes the oracle's answer: the answer is taken, and the next turn is SAMPLE's
(R172, R173). -/
def answered (s : State) : State :=
  { s with
    appAnswers := s.appAnswers.tail
    appHistory := Config.appNext s.appHistory s.I
    turn := .sample }

theorem answered_ready {s : State} (h : Ready s) : Ready (answered s) := h

theorem step_loop_answer {s : State} (hl : Live s) (hq : s.seq = []) (hm : s.mode = .loop) (hp : s.phase = .running)
    (ht : s.turn = .compose) : step s = exec (.compose (consult s).1) (answered s) := by
  rw [step_loop_compose hl hq hm hp ht, consult_snd, answered]

/-- An answer with an undefined value raises UndefinedOutput when it is composed (R157, R172). -/
theorem step_loop_answer_undefined {s : State} (hl : Live s) (hq : s.seq = []) (hm : s.mode = .loop)
    (hp : s.phase = .running) (ht : s.turn = .compose) (hundef : (consult s).1.allDefined = false) :
    ∃ t x, step s = .next t ∧ t.fault = some (.undefinedOutput x) := by
  have hfirst : firstUndefined (consult s).1 ≠ none := fun h => by
    simp [(firstUndefined_eq_none _).mp h] at hundef
  obtain ⟨x, hx⟩ := Option.ne_none_iff_exists'.mp hfirst
  rw [step_loop_answer hl hq hm hp ht, exec, execCompose, whenIdle_ready (by exact hl) (by exact hq), hx]
  exact ⟨_, x, rfl, rfl⟩

/-- A defined answer is composed in 152 steps (R150, R172). -/
theorem loop_answer_completes {s : State} (h : Ready s) (hm : s.mode = .loop) (hp : s.phase = .running)
    (ht : s.turn = .compose) (hdef : (consult s).1.allDefined = true) :
    ∃ c d, (consult s).1.cal = some c ∧ (consult s).1.strobeOut = some d ∧
      run 152 s = .next (composed (assemble s.cfg (consult s).1) c d (answered s)) := by
  obtain ⟨c, d, hc, hd⟩ := OutputSnapshot.exists_directs hdef
  obtain ⟨t, hbegin, hrun⟩ := compose_completes (answered_ready h) hdef hc hd
  obtain ⟨hl, -, -, hq⟩ := h
  exact ⟨c, d, hc, hd, (run_succ_next 151 ((step_loop_answer hl hq hm hp ht).trans hbegin)).trans hrun⟩

/-- A block that has composed can begin its next operation (R32, R151). -/
theorem composed_ready {s : State} (h : Ready s) (v : Frame) (c d : Bit) : Ready (composed v c d s) := by
  obtain ⟨hl, -, -, hq⟩ := h
  exact ⟨hl, rfl, rfl, hq⟩

/-- At a boundary the Control Loop always has a next operation, and it begins (R174). -/
theorem exists_step_loop_idle {s : State} (hl : Live s) (hq : s.seq = []) (hm : s.mode = .loop) :
    ∃ t, step s = .next t := by
  cases hp : s.phase with
  | reset =>
    rw [step_loop_boot hl hq hm hp]
    exact exec_ready _ hl hq
  | running =>
    cases ht : s.turn with
    | sample =>
      rw [step_loop_sample hl hq hm hp ht]
      exact exec_ready _ (by exact hl) (by exact hq)
    | compose =>
      rw [step_loop_answer hl hq hm hp ht]
      exact exec_ready _ (by exact hl) (by exact hq)

/-! ### The statements on the Input Sampler and the Control Loop -/

/-- Settles O11: within an operation the next access is performed, between two the loop takes one
(`exists_step_loop_idle`). -/
theorem loopNeverBlocks : Obligations.LoopNeverBlocks := by
  intro s hl hm
  cases hq : s.seq with
  | nil => exact exists_step_loop_idle hl hq hm
  | cons m rest => exact ⟨_, step_cons hl hq⟩

/-- Settles O41: the operation runs to the end of its 12 reads (`start_completes`), whose effect is
`performAll_reads_frame` and, bit by bit, `getLsbD_performAll_reads`. -/
theorem sampleResult : Obligations.SampleResult := by
  rintro s ⟨hl, -, -, hq⟩
  obtain ⟨t, ht, -, hrun⟩ := start_completes false hl hq sampleTrace_ne_nil
  rw [sampleTrace, performAll_reads_frame] at hrun
  refine ⟨t, _, (exec_sample_eq_start hl hq).trans ht, hrun, fun n hn => ?_⟩
  obtain ⟨x, rfl⟩ := InSignal.exists_bit hn
  exact getLsbD_performAll_reads (by decide) x.getElem_all s

/-- Settles O42: at each of the 12 moments O41 speaks of, the level is the steady one. -/
theorem sampleOfSteadyPins : Obligations.SampleOfSteadyPins := by
  intro s v later h hin
  obtain ⟨t, i, ht, hrun, hbits⟩ := sampleResult s h
  have hlevel {n : Nat} (hn : n < 12) : s.inputs[n]? = some v := by
    rw [hin, List.getElem?_append_left (by simpa using hn), List.getElem?_replicate_of_lt hn]
  have hv : i = v := BitVec.eq_of_getLsbD_eq fun n hn => by rw [hbits n hn, levelsAt, hlevel hn, Option.getD_some]
  have hpin5 (n : InSignal) : (0x008#12).getLsbD n.bit = decide (n = .lstLsp) := by cases n <;> rfl
  refine ⟨t, _, ht, hrun, hv, ?_⟩
  rintro rfl n
  rw [hv]
  exact hpin5 n

/-- Settles O43: SAMPLE as O41 says; then COMPOSE of the answer, which raises its fault (`step_loop_answer_undefined`)
or runs to the composed state (`loop_answer_completes`), where the next ITERATE begins (`step_loop_sample`). -/
theorem iterateResult : Obligations.IterateResult := by
  intro s h hm hp ht
  have ⟨_, _, _, hidle⟩ := h
  have hsample := step_loop_sample h.1 hidle hm hp ht
  obtain ⟨t, i, hbegin, hrun, hbits⟩ := sampleResult { s with turn := .compose } h
  have hready : Ready (halfway i s) := h
  have ⟨hl, _, _, hq⟩ := hready
  refine ⟨hsample, halfway i s, (run_succ_next 11 (hsample.trans hbegin)).trans hrun,
    step_loop_compose hl hq hm hp rfl, hbits, rfl, rfl, rfl, rfl,
    step_loop_answer_undefined hl hq hm hp rfl, fun hdef => ?_⟩
  obtain ⟨c, d, hc, hd, hend⟩ := loop_answer_completes hready hm hp rfl hdef
  have hready' := composed_ready (answered_ready hready) (assemble s.cfg (consult (halfway i s)).1) c d
  exact ⟨_, hend, rfl, step_loop_sample hready'.1 hq hm hp rfl, hready', hm, hp, rfl, rfl, rfl, hc.symm, hd.symm⟩

/-- Settles O47: BOOT is one CLEAR (`step_loop_boot`), which ends in the cleared state; before its last write the phase
has not moved (`exec_clear_observed`), and the outputs are those `outputVector_take_clearTrace` gives. -/
theorem bootBlanksWhateverTheDraws : Obligations.BootBlanksWhateverTheDraws := by
  intro c d hc
  have hready := ready_resetWith d hc
  have hboot : step (.resetWith c d) = exec .clear (.resetWith c d) := step_loop_boot hready.1 rfl rfl rfl
  obtain ⟨t, ht, hobs⟩ := exec_clear_observed hready.1 rfl
  obtain ⟨t', ht', -, hend⟩ := clear_completes hready
  refine ⟨hboot, (run_succ_next 75 (hboot.trans ht')).trans hend, fun n hn => ?_⟩
  cases n with
  | zero => exact ⟨_, run_zero _, rfl, fun h => absurd h (by decide), fun h => absurd h (by decide)⟩
  | succ k =>
    obtain ⟨u, hu, hphase, hout⟩ := hobs k (by omega)
    rw [outputVector_take_clearTrace rfl rfl] at hout
    have hL : u.L = (outputVector u).1 := rfl
    have hcal : u.P.cal = (outputVector u).2.1 := rfl
    refine ⟨u, (run_succ_next k (hboot.trans ht)).trans hu, hphase, fun h => ?_, fun h => ?_⟩
    · rw [hL, hout, if_neg (by omega)]
      split_ifs <;> rfl
    · rw [hcal, hout, if_neg (by omega), if_neg (by omega)]
      split_ifs <;> rfl

/-- Settles O7: the loaded word is the next of the stream, and a step runs that as O6 says. -/
theorem stepRunsLoadedWord : Obligations.StepRunsLoadedWord := by
  intro s w i hl hd
  have hword : BitVec.ofNat 32 (w.toNat % 2 ^ 32) = w := by
    rw [Nat.mod_eq_of_lt w.isLt, BitVec.ofNat_toNat, BitVec.setWidth_eq]
  rw [State.withFetchWord, hword]
  exact stepRunsDecodedWord (loadCommand w s) w s.commands i hl rfl rfl rfl hd

/-- Settles O10: BOOT, SAMPLE and COMPOSE each by its lemma. -/
theorem loopTakesOperationsInOrder : Obligations.LoopTakesOperationsInOrder := by
  intro s hl hq hm
  exact ⟨step_loop_boot hl hq hm, step_loop_sample hl hq hm, step_loop_answer hl hq hm⟩

/-- Settles O12: `exec_busy`. -/
theorem noOperationBeginsInsideAnother : Obligations.NoOperationBeginsInsideAnother :=
  fun i _ hl hq => exec_busy hl hq i

end Sys2Proof.Machine
end

section
/-! Faults (60_exceptions.md, R190 to R199): what a well-formed operation does instead of faulting, what a step that raises
a fault leaves unchanged, and construction with a malformed wiring table. -/

namespace Sys2Proof.Machine

/-! ### Operations that do not fault -/

/-- Performing a pending access raises no fault (R195). -/
@[simp] theorem advance_fault (s : State) : (advance s).fault = s.fault := by
  cases hq : s.seq with
  | nil => rw [advance, hq]
  | cons m rest => rw [advance_cons hq, settle_fault, withSeq_fault, perform_fault]

/-- A well-formed operation passes its checks and loads its expansion (R89, R138, R157). -/
theorem exec_eq_start_of_wellFormed {i : Instr} {s : State} (hl : Live s) (hq : s.seq = []) (hwf : i.WellFormed) :
    ∃ b ms, Expansion s b ms ∧ exec i s = start b ms s := by
  cases i with
  | sample => exact ⟨_, _, .inl ⟨rfl, rfl⟩, exec_sample_eq_start hl hq⟩
  | clear => exact ⟨_, _, .inr (.inl ⟨rfl, rfl⟩), exec_clear_eq_start hl hq⟩
  | shiftOut bits =>
    have hb : bits.length = 24 := beq_iff_eq.mp hwf
    exact ⟨_, _, .inr (.inr (.inl ⟨rfl, bits, hb, rfl⟩)), exec_shiftOut_eq_start hl hq hb⟩
  | compose o =>
    obtain ⟨c, d, hc, hd⟩ := OutputSnapshot.exists_directs hwf
    exact ⟨_, _, .inr (.inr (.inr ⟨rfl, _, c, d, rfl⟩)), exec_compose_eq_start hl hq hwf hc hd⟩

/-! ### Fault entry -/

/-- A step raises a fault only between operations, by fault entry on the state in which the operation was taken (R190,
R198). -/
theorem step_raises_fault {s t : State} {f : Fault} (h : step s = .next t) (hf : t.fault = some f) :
    s.seq = [] ∧ ∃ s', SameBlock s s' ∧ t = raiseFault f s' := by
  have hnone : s.fault = none := (step_cases h).1.fault_eq_none
  obtain ⟨m, rest, -, rfl⟩ | ⟨hq, s', f', hsame, rfl⟩ | ⟨-, s', b, m, rest, hsame, -, -, rfl⟩ := step_access_cases h
  · simp [hnone] at hf
  · obtain rfl : f' = f := by simpa using hf
    exact ⟨hq, s', hsame, rfl⟩
  · simp [hsame.fault, hnone] at hf

/-! ### Malformed wiring tables -/

theorem construct_of_defect {c : Config} {x : WiringDefect} (h : Wiring.defect c.wiring = some x) (d : ResetDraws) :
    construct c d = .fault (.wiringTable x) := by
  simp only [construct, h]

theorem construct_of_valid {c : Config} (h : Config.Valid c) (d : ResetDraws) :
    construct c d = .next (.resetWith c d) := by
  have hdefect : Wiring.defect c.wiring = none := h
  simp only [construct, hdefect]

/-- With no latched fault, a malformed wiring table is what stops the machine (R193; log 8). -/
theorem stopped_of_defect {s : State} {x : WiringDefect} (hf : s.fault = none)
    (h : Wiring.defect s.cfg.wiring = some x) : s.stopped = some (.wiringTable x) := by
  simp only [State.stopped, hf, h, Option.map_some]

/-! ### The statements on faults -/

/-- Settles O49: a well-formed operation loads its expansion (`exec_eq_start_of_wellFormed`), which runs to its end
(`start_completes`), and no pin access touches the fault latch. -/
theorem wellFormedOperationsNeverFault : Obligations.WellFormedOperationsNeverFault := by
  intro i s hl hq hwf
  have hf : s.fault = none := hl.fault_eq_none
  obtain ⟨b, ms, he, hexec⟩ := exec_eq_start_of_wellFormed hl hq hwf
  obtain ⟨t, ht, hlen, hrun⟩ := start_completes b hl hq he.ne_nil
  obtain rfl : advance (load b ms s) = t := Host.Outcome.next.inj ht
  refine ⟨_, _, hexec.trans ht, ?begun, hlen ▸ hrun, ?idle, ?ended⟩
  case begun => rw [advance_fault, load_fault, hf]
  case idle => exact (performAll_seq ms s).trans hq
  case ended => exact (performAll_fault ms s).trans hf

/-- Settles O50: fault entry (`step_raises_fault`) changes only the latch, and taking the operation only what `SameBlock`
leaves out. -/
theorem faultEntryIsPrecise : Obligations.FaultEntryIsPrecise := by
  intro s t f h hf
  obtain ⟨hq, s', hsame, rfl⟩ := step_raises_fault h hf
  exact ⟨hq, (step_cases h).1.fault_eq_none, raiseFault_seq f s', hsame.P, hsame.S, hsame.L, hsame.phase, hsame.reads,
    hsame.I, hsame.cfg⟩

/-- Settles O33: construction and the stop both read the check; a stopped machine takes no step. -/
theorem malformedWiringHasNoMachine : Obligations.MalformedWiringHasNoMachine := by
  intro c d
  refine ⟨fun x hx => ⟨construct_of_defect hx d, ?stops⟩, fun hc => construct_of_valid hc d, standard_valid⟩
  case stops =>
    rintro s rfl hf
    have hstep : step s = .fault (.wiringTable x) := step_stopped (stopped_of_defect hf hx)
    exact ⟨hstep, fun n => by rw [run_succ, hstep]⟩

end Sys2Proof.Machine
end
